-- ==== Sys2Proof/Word.lean ====
section
/-! DEFINITION. The widths of potato CORE's values (10_state.md R20, 30_encoding.md R92). -/

namespace Sys2Proof

/-- An 8-bit value: a general register, a timer, a byte of memory (R21, R29, R60). -/
abbrev Byte := BitVec 8

/-- A 16-bit value: PC, I, a return address, an instruction word (R25, R26, R28, R90). -/
abbrev Word := BitVec 16

/-- A 4-bit field: a register number, a key number or a sprite height (R92). -/
abbrev Nibble := BitVec 4

/-- The 12-bit address field `NNN` (R92). -/
abbrev Addr12 := BitVec 12

end Sys2Proof
end

