-- ==== Sys2Proof/Syntax.lean ====
section
/-! DEFINITION. The 34 instructions of 30_encoding.md R96, one constructor per row, with the fields of R92. -/

namespace Sys2Proof

/-- The closed instruction set (R96, R100). `x` and `y` are register numbers, `nn` an 8-bit immediate, `nnn` a 12-bit
address, `n` a row count. The docstrings give R96's pattern and the rule of the meaning. -/
inductive Instr where
  /-- `00E0` CLS (R200) -/
  | cls
  /-- `00EE` RET (R143) -/
  | ret
  /-- `1NNN` JP nnn (R144) -/
  | jp (nnn : Addr12)
  /-- `2NNN` CALL nnn (R145) -/
  | call (nnn : Addr12)
  /-- `3XNN` SE Vx, nn (R147) -/
  | seImm (x : Nibble) (nn : Byte)
  /-- `4XNN` SNE Vx, nn (R148) -/
  | sneImm (x : Nibble) (nn : Byte)
  /-- `5XY0` SE Vx, Vy (R149) -/
  | seReg (x y : Nibble)
  /-- `6XNN` LD Vx, nn (R171) -/
  | ldImm (x : Nibble) (nn : Byte)
  /-- `7XNN` ADD Vx, nn (R172) -/
  | addImm (x : Nibble) (nn : Byte)
  /-- `8XY0` LD Vx, Vy (R173) -/
  | ldReg (x y : Nibble)
  /-- `8XY1` OR Vx, Vy (R174) -/
  | orReg (x y : Nibble)
  /-- `8XY2` AND Vx, Vy (R175) -/
  | andReg (x y : Nibble)
  /-- `8XY3` XOR Vx, Vy (R176) -/
  | xorReg (x y : Nibble)
  /-- `8XY4` ADD Vx, Vy (R177) -/
  | addReg (x y : Nibble)
  /-- `8XY5` SUB Vx, Vy (R178) -/
  | subReg (x y : Nibble)
  /-- `8XY6` SHR Vx, Vy (R179) -/
  | shr (x y : Nibble)
  /-- `8XY7` SUBN Vx, Vy (R180) -/
  | subnReg (x y : Nibble)
  /-- `8XYE` SHL Vx, Vy (R181) -/
  | shl (x y : Nibble)
  /-- `9XY0` SNE Vx, Vy (R150) -/
  | sneReg (x y : Nibble)
  /-- `ANNN` LD I, nnn (R230) -/
  | ldI (nnn : Addr12)
  /-- `BNNN` JP V0, nnn (R146) -/
  | jpV0 (nnn : Addr12)
  /-- `CXNN` RND Vx, nn (R190) -/
  | rnd (x : Nibble) (nn : Byte)
  /-- `DXYN` DRW Vx, Vy, n (R203) -/
  | drw (x y n : Nibble)
  /-- `EX9E` SKP Vx (R261) -/
  | skp (x : Nibble)
  /-- `EXA1` SKNP Vx (R262) -/
  | sknp (x : Nibble)
  /-- `FX07` LD Vx, DT (R263) -/
  | ldVxDt (x : Nibble)
  /-- `FX0A` LD Vx, K (R266) -/
  | ldVxK (x : Nibble)
  /-- `FX15` LD DT, Vx (R264) -/
  | ldDtVx (x : Nibble)
  /-- `FX18` LD ST, Vx (R265) -/
  | ldStVx (x : Nibble)
  /-- `FX1E` ADD I, Vx (R231) -/
  | addIVx (x : Nibble)
  /-- `FX29` LD F, Vx (R210) -/
  | ldFVx (x : Nibble)
  /-- `FX33` LD B, Vx (R233) -/
  | ldBVx (x : Nibble)
  /-- `FX55` LD [I], Vx (R234) -/
  | storeRegs (x : Nibble)
  /-- `FX65` LD Vx, [I] (R235) -/
  | loadRegs (x : Nibble)
  deriving DecidableEq, Repr

end Sys2Proof
end

