-- ==== Sys2Proof/Decode.lean ====
section
/-! DEFINITION. From a 16-bit word to an instruction or an unknown opcode, and back (30_encoding.md R90 to R100). -/

namespace Sys2Proof

/-- R100: a decoder returns one of 35 outcomes, an instruction with its fields or `Unknown(word)`. -/
inductive Decoded where
  | instr (i : Instr)
  | unknown (w : Word)
  deriving DecidableEq, Repr

/-- R92: `F = w[15:12]`. -/
def fieldF (w : Word) : Nibble := w.extractLsb' 12 4

/-- R92: `X = w[11:8]`. -/
def fieldX (w : Word) : Nibble := w.extractLsb' 8 4

/-- R92: `Y = w[7:4]`. -/
def fieldY (w : Word) : Nibble := w.extractLsb' 4 4

/-- R92: `N = w[3:0]`. -/
def fieldN (w : Word) : Nibble := w.extractLsb' 0 4

/-- R92: `NN = w[7:0]`. -/
def fieldNN (w : Word) : Byte := w.extractLsb' 0 8

/-- R92: `NNN = w[11:0]`. -/
def fieldNNN (w : Word) : Addr12 := w.extractLsb' 0 12

/-- R95: family 0 dispatches on the whole word. -/
def decodeFamily0 (w : Word) : Decoded :=
  match w.toNat with
  | 0x00E0 => .instr .cls
  | 0x00EE => .instr .ret
  | _      => .unknown w

/-- R95, 90 C7: in families 5 and 9 the low nibble must be 0. -/
def decodeLowNibble0 (w : Word) (i : Instr) : Decoded :=
  if fieldN w = 0 then .instr i else .unknown w

/-- R95: family 8 dispatches on N. -/
def decodeFamily8 (w : Word) : Decoded :=
  match (fieldN w).toNat with
  | 0x0 => .instr (.ldReg (fieldX w) (fieldY w))
  | 0x1 => .instr (.orReg (fieldX w) (fieldY w))
  | 0x2 => .instr (.andReg (fieldX w) (fieldY w))
  | 0x3 => .instr (.xorReg (fieldX w) (fieldY w))
  | 0x4 => .instr (.addReg (fieldX w) (fieldY w))
  | 0x5 => .instr (.subReg (fieldX w) (fieldY w))
  | 0x6 => .instr (.shr (fieldX w) (fieldY w))
  | 0x7 => .instr (.subnReg (fieldX w) (fieldY w))
  | 0xE => .instr (.shl (fieldX w) (fieldY w))
  | _   => .unknown w

/-- R95: family E dispatches on NN. -/
def decodeFamilyE (w : Word) : Decoded :=
  match (fieldNN w).toNat with
  | 0x9E => .instr (.skp (fieldX w))
  | 0xA1 => .instr (.sknp (fieldX w))
  | _    => .unknown w

/-- R95: family F dispatches on NN. -/
def decodeFamilyF (w : Word) : Decoded :=
  match (fieldNN w).toNat with
  | 0x07 => .instr (.ldVxDt (fieldX w))
  | 0x0A => .instr (.ldVxK (fieldX w))
  | 0x15 => .instr (.ldDtVx (fieldX w))
  | 0x18 => .instr (.ldStVx (fieldX w))
  | 0x1E => .instr (.addIVx (fieldX w))
  | 0x29 => .instr (.ldFVx (fieldX w))
  | 0x33 => .instr (.ldBVx (fieldX w))
  | 0x55 => .instr (.storeRegs (fieldX w))
  | 0x65 => .instr (.loadRegs (fieldX w))
  | _    => .unknown w

/-- R95: the two-level dispatch, first on F. The last arm is family F, the only value of F left. -/
def decode (w : Word) : Decoded :=
  match (fieldF w).toNat with
  | 0x0 => decodeFamily0 w
  | 0x1 => .instr (.jp (fieldNNN w))
  | 0x2 => .instr (.call (fieldNNN w))
  | 0x3 => .instr (.seImm (fieldX w) (fieldNN w))
  | 0x4 => .instr (.sneImm (fieldX w) (fieldNN w))
  | 0x5 => decodeLowNibble0 w (.seReg (fieldX w) (fieldY w))
  | 0x6 => .instr (.ldImm (fieldX w) (fieldNN w))
  | 0x7 => .instr (.addImm (fieldX w) (fieldNN w))
  | 0x8 => decodeFamily8 w
  | 0x9 => decodeLowNibble0 w (.sneReg (fieldX w) (fieldY w))
  | 0xA => .instr (.ldI (fieldNNN w))
  | 0xB => .instr (.jpV0 (fieldNNN w))
  | 0xC => .instr (.rnd (fieldX w) (fieldNN w))
  | 0xD => .instr (.drw (fieldX w) (fieldY w) (fieldN w))
  | 0xE => decodeFamilyE w
  | _   => decodeFamilyF w

/-- R65, R90: the word formed from the byte at the lower address (bits 15 to 8) and the byte after it. -/
def bigEndian (hi lo : Byte) : Word := hi.setWidth 16 <<< 8 ||| lo.setWidth 16

/-- The byte of a word that lies at the lower address (R65). -/
def highByte (w : Word) : Byte := w.extractLsb' 8 8

/-- The byte of a word that lies at the higher address (R65). -/
def lowByte (w : Word) : Byte := w.extractLsb' 0 8

/-- Decoding a byte sequence: the outcome of its first word and the bytes after it, or none where fewer than two bytes
stand there (a fetch never sees that: R121 faults first). -/
def decodeBytes : List Byte → Option (Decoded × List Byte)
  | hi :: lo :: rest => some (decode (bigEndian hi lo), rest)
  | _ => none

/-- Format `A` (R93): a family's word with an address. -/
def formatA (family : Word) (nnn : Addr12) : Word := family ||| nnn.setWidth 16

/-- Format `XK` (R93): a family's word with a register and an immediate. -/
def formatXK (family : Word) (x : Nibble) (nn : Byte) : Word :=
  family ||| x.setWidth 16 <<< 8 ||| nn.setWidth 16

/-- Format `XY` (R93): a word with its sub-operation and two registers. -/
def formatXY (fixed : Word) (x y : Nibble) : Word :=
  fixed ||| x.setWidth 16 <<< 8 ||| y.setWidth 16 <<< 4

/-- Format `XYN` (R93): a family's word with two registers and a row count. -/
def formatXYN (family : Word) (x y n : Nibble) : Word :=
  family ||| x.setWidth 16 <<< 8 ||| y.setWidth 16 <<< 4 ||| n.setWidth 16

/-- Format `XS` (R93): a word with its sub-operation and one register. -/
def formatXS (fixed : Word) (x : Nibble) : Word := fixed ||| x.setWidth 16 <<< 8

/-- The word of an instruction (R96's match column with the fields of R92 put in). -/
def encode : Instr → Word
  | .cls          => 0x00E0
  | .ret          => 0x00EE
  | .jp nnn       => formatA 0x1000 nnn
  | .call nnn     => formatA 0x2000 nnn
  | .seImm x nn   => formatXK 0x3000 x nn
  | .sneImm x nn  => formatXK 0x4000 x nn
  | .seReg x y    => formatXY 0x5000 x y
  | .ldImm x nn   => formatXK 0x6000 x nn
  | .addImm x nn  => formatXK 0x7000 x nn
  | .ldReg x y    => formatXY 0x8000 x y
  | .orReg x y    => formatXY 0x8001 x y
  | .andReg x y   => formatXY 0x8002 x y
  | .xorReg x y   => formatXY 0x8003 x y
  | .addReg x y   => formatXY 0x8004 x y
  | .subReg x y   => formatXY 0x8005 x y
  | .shr x y      => formatXY 0x8006 x y
  | .subnReg x y  => formatXY 0x8007 x y
  | .shl x y      => formatXY 0x800E x y
  | .sneReg x y   => formatXY 0x9000 x y
  | .ldI nnn      => formatA 0xA000 nnn
  | .jpV0 nnn     => formatA 0xB000 nnn
  | .rnd x nn     => formatXK 0xC000 x nn
  | .drw x y n    => formatXYN 0xD000 x y n
  | .skp x        => formatXS 0xE09E x
  | .sknp x       => formatXS 0xE0A1 x
  | .ldVxDt x     => formatXS 0xF007 x
  | .ldVxK x      => formatXS 0xF00A x
  | .ldDtVx x     => formatXS 0xF015 x
  | .ldStVx x     => formatXS 0xF018 x
  | .addIVx x     => formatXS 0xF01E x
  | .ldFVx x      => formatXS 0xF029 x
  | .ldBVx x      => formatXS 0xF033 x
  | .storeRegs x  => formatXS 0xF055 x
  | .loadRegs x   => formatXS 0xF065 x

/-- The two bytes of an instruction in memory order (R65). -/
def encodeBytes (i : Instr) : List Byte := [highByte (encode i), lowByte (encode i)]

/-- One row of R96's opcode map: a word is an instruction of the row when its bits under `mask` are `pattern`. -/
structure OpcodeRow where
  pattern : Word
  mask    : Word
  deriving DecidableEq, Repr

/-- R96: "mask bits set to 1 are compared against match". -/
def rowMatches (r : OpcodeRow) (w : Word) : Bool := w &&& r.mask == r.pattern

/-- Rows 1 to 17 of R96's opcode map. -/
def opcodeRowsLow : List OpcodeRow :=
  [⟨0x00E0, 0xFFFF⟩, ⟨0x00EE, 0xFFFF⟩, ⟨0x1000, 0xF000⟩, ⟨0x2000, 0xF000⟩, ⟨0x3000, 0xF000⟩, ⟨0x4000, 0xF000⟩,
   ⟨0x5000, 0xF00F⟩, ⟨0x6000, 0xF000⟩, ⟨0x7000, 0xF000⟩, ⟨0x8000, 0xF00F⟩, ⟨0x8001, 0xF00F⟩, ⟨0x8002, 0xF00F⟩,
   ⟨0x8003, 0xF00F⟩, ⟨0x8004, 0xF00F⟩, ⟨0x8005, 0xF00F⟩, ⟨0x8006, 0xF00F⟩, ⟨0x8007, 0xF00F⟩]

/-- Rows 18 to 34 of R96's opcode map. -/
def opcodeRowsHigh : List OpcodeRow :=
  [⟨0x800E, 0xF00F⟩, ⟨0x9000, 0xF00F⟩, ⟨0xA000, 0xF000⟩, ⟨0xB000, 0xF000⟩, ⟨0xC000, 0xF000⟩, ⟨0xD000, 0xF000⟩,
   ⟨0xE09E, 0xF0FF⟩, ⟨0xE0A1, 0xF0FF⟩, ⟨0xF007, 0xF0FF⟩, ⟨0xF00A, 0xF0FF⟩, ⟨0xF015, 0xF0FF⟩, ⟨0xF018, 0xF0FF⟩,
   ⟨0xF01E, 0xF0FF⟩, ⟨0xF029, 0xF0FF⟩, ⟨0xF033, 0xF0FF⟩, ⟨0xF055, 0xF0FF⟩, ⟨0xF065, 0xF0FF⟩]

/-- R96's opcode map, in its order. -/
def opcodeTable : List OpcodeRow := opcodeRowsLow ++ opcodeRowsHigh

/-- The position in R96's map (from 0) of the row an instruction belongs to. -/
def rowNumber : Instr → Nat
  | .cls => 0 | .ret => 1 | .jp _ => 2 | .call _ => 3 | .seImm _ _ => 4 | .sneImm _ _ => 5 | .seReg _ _ => 6
  | .ldImm _ _ => 7 | .addImm _ _ => 8 | .ldReg _ _ => 9 | .orReg _ _ => 10 | .andReg _ _ => 11 | .xorReg _ _ => 12
  | .addReg _ _ => 13 | .subReg _ _ => 14 | .shr _ _ => 15 | .subnReg _ _ => 16 | .shl _ _ => 17 | .sneReg _ _ => 18
  | .ldI _ => 19 | .jpV0 _ => 20 | .rnd _ _ => 21 | .drw _ _ _ => 22 | .skp _ => 23 | .sknp _ => 24 | .ldVxDt _ => 25
  | .ldVxK _ => 26 | .ldDtVx _ => 27 | .ldStVx _ => 28 | .addIVx _ => 29 | .ldFVx _ => 30 | .ldBVx _ => 31
  | .storeRegs _ => 32 | .loadRegs _ => 33

/-- An instruction's row of R96's opcode map. -/
def opcodeRow (i : Instr) : OpcodeRow := opcodeTable.getD (rowNumber i) ⟨0, 0⟩

/-- The word whose bits are `w`, of which the table gives the low `nbits`; the bits above are 0. -/
def tableWord (nbits w : Nat) : Word := BitVec.ofNat 16 (w % 2 ^ nbits)

/-- The instruction the decoder reads from a word numbered as `spec/opcode_table.json` numbers it (one 16-bit word, bit 0
its least significant), its high byte laid at the lower address (R65). -/
def decodeTableWord (nbits w : Nat) : Option Instr :=
  match decodeBytes [highByte (tableWord nbits w), lowByte (tableWord nbits w)] with
  | some (.instr i, _) => some i
  | _ => none

end Sys2Proof
end

