-- ==== Sys2Proof/Config.lean ====
section
/-! DEFINITION. What an implementation fixes (00_scope.md R7) and the one free value (R8, 40_cycle.md R128). -/

namespace Sys2Proof

/-- The choices of `FX1E_VF` (R7, R231). -/
inductive IndexFlagPolicy where
  | noFlag
  | setOnly
  | setOrClear
  deriving DecidableEq, Repr

/-- The choices of `KEY_INDEX_POLICY` (R7, R260). -/
inductive KeyIndexPolicy where
  | fault
  | mask
  deriving DecidableEq, Repr

/-- The choices of `FONT_WRITE_POLICY` (R7, R64). -/
inductive FontWritePolicy where
  | fault
  | ignore
  | allow
  deriving DecidableEq, Repr

/-- The parameters of R7 on which a run depends. `State.cfg` holds one, and nothing ever writes it: DESIGN CHOICE,
log entry 2. -/
structure Config where
  width           : Nat
  height          : Nat
  font            : Vector Byte 80
  quirkShiftVy    : Bool
  quirkLdstIncI   : Bool
  fx1eVf          : IndexFlagPolicy
  keyIndexPolicy  : KeyIndexPolicy
  fontWritePolicy : FontWritePolicy
  deriving DecidableEq, Repr

/-- One RGBA colour, its four bytes in the order R330 gives them. -/
structure Rgba where
  r : Byte
  g : Byte
  b : Byte
  a : Byte
  deriving DecidableEq, Repr

/-- The parameters `FG` and `BG`, which R7 leaves OPEN: an argument of the framebuffer read-out (log entry 13). -/
structure Colours where
  fg : Rgba
  bg : Rgba
  deriving DecidableEq, Repr

/-- FREE VALUE (R128: "a draw under no law"): the byte the `n`-th draw of `CXNN` gets. It has no body, so no proof can
see it and every claim holds for every sequence of draws (log entry 4). -/
opaque Config.freeByte : Nat → Byte

end Sys2Proof
end

