-- ==== Sys2Proof/Machine/Params.lean ====
section
/-! DEFINITION. The fixed parameters of 00_scope.md R7 and the default of each parameter that has one. -/

namespace Sys2Proof.Machine

/-- `MEM_SIZE` (R7, R60). -/
abbrev memSize : Nat := 4096

/-- `FONT_BASE` (R7, R211). -/
abbrev fontBase : Nat := 0x050

/-- The font table's size, 16 glyphs of 5 bytes (R211). -/
abbrev fontSize : Nat := 80

/-- `PROG_BASE` (R7, R61). -/
abbrev progBase : Nat := 0x200

/-- `MAX_PROG` (R7, R70): 4096 − 0x200 = 3584. -/
abbrev maxProg : Nat := memSize - progBase

/-- `STACK_CAP` (R7, R28). -/
abbrev stackCap : Nat := 16

/-- The default `FONT`: R212's table, which the spec itself marks as general knowledge (log entry 7). -/
def defaultFont : Vector Byte 80 :=
  #v[0xF0, 0x90, 0x90, 0x90, 0xF0,  0x20, 0x60, 0x20, 0x20, 0x70,
     0xF0, 0x10, 0xF0, 0x80, 0xF0,  0xF0, 0x10, 0xF0, 0x10, 0xF0,
     0x90, 0x90, 0xF0, 0x10, 0x10,  0xF0, 0x80, 0xF0, 0x10, 0xF0,
     0xF0, 0x80, 0xF0, 0x90, 0xF0,  0xF0, 0x10, 0x20, 0x40, 0x40,
     0xF0, 0x90, 0xF0, 0x90, 0xF0,  0xF0, 0x90, 0xF0, 0x10, 0xF0,
     0xF0, 0x90, 0xF0, 0x90, 0x90,  0xE0, 0x90, 0xE0, 0x90, 0xE0,
     0xF0, 0x80, 0x80, 0x80, 0xF0,  0xE0, 0x90, 0x90, 0x90, 0xE0,
     0xF0, 0x80, 0xF0, 0x80, 0xF0,  0xF0, 0x80, 0xF0, 0x80, 0x80]

/-- The default column of R7. -/
def defaultConfig : Config where
  width           := 64
  height          := 32
  font            := defaultFont
  quirkShiftVy    := false
  quirkLdstIncI   := false
  fx1eVf          := .setOnly
  keyIndexPolicy  := .fault
  fontWritePolicy := .fault

end Sys2Proof.Machine
end

