-- ==== Sys2Proof/Machine/State.lean ====
section
/-! DEFINITION. The state of the block (10_state.md R20), the fault record (R33), TICK's responses (R50) and the state after
RESET (R40, 70_reset_and_hazards.md R350). -/

namespace Sys2Proof.Machine

/-- Memory (R60): the bytes that differ from what an unlisted address reads as (`Memory.unlisted`), with strictly rising
addresses (`Memory.wf`). -/
abbrev Memory := List Host.Cell

/-- The display (R32): rows from the top, each a list of pixels from the left; `true` is on. -/
abbrev Display := List (List Bool)

/-- The fatal fault kinds (60_exceptions.md R301). -/
inductive FaultKind where
  | stackOverflow
  | stackUnderflow
  | outOfBounds
  | keyIndexOutOfRange
  | readOnly
  deriving DecidableEq, Repr

/-- The fault record (R33): `word` is none for a fetch fault, `bad` is the extra information of R301's table. -/
structure FaultRecord where
  kind : FaultKind
  addr : Word
  word : Option Word
  bad  : Option Nat
  deriving DecidableEq, Repr

/-- What a TICK responds (R50, 40_cycle.md R125 to R127). -/
inductive TickResponse where
  | ok (changed : Bool)
  | unknown (word : Word)
  | fault (record : FaultRecord)
  deriving DecidableEq, Repr

/-- The state: R20's tuple, and three fields of the model's own (`cfg`, `response`, `draws`). -/
structure State where
  /-- R7's parameters. The model's own field, written by nothing: log entry 2. -/
  cfg      : Config
  /-- R60. -/
  mem      : Memory
  /-- V0 to VF (R21); VF is also the flag (R23). -/
  v        : Vector Byte 16
  /-- The index register I (R25). -/
  i        : Word
  /-- R26. -/
  pc       : Word
  /-- Return addresses, the top one last (R28, 41_flow.md R141). -/
  stack    : List Word
  /-- The delay timer (R29). -/
  dt       : Byte
  /-- The sound timer (R30). -/
  st       : Byte
  /-- The key input register (R31). -/
  key      : Vector Bool 16
  /-- R32. -/
  disp     : Display
  /-- The latch of the first fatal fault (R33). -/
  fault    : Option FaultRecord
  /-- What the last TICK responded, none before the first. The model's own field: log entry 3. -/
  response : Option TickResponse
  /-- How many random bytes have been drawn. The model's own field: log entries 4 and 5. -/
  draws    : Nat
  deriving DecidableEq, Repr

/-- Why the machine could stop with a fault: never. The spec's fatal faults are responses after which the block goes on
(R129, R305), so they are next states with the latch set, and this type has no constructor (log entry 10). -/
inductive Fault where
  deriving DecidableEq, Repr

/-- Why a step could be refused. -/
inductive Refusal where
  /-- An instruction without a meaning. Only an arm of `exec` could raise it, and none does: every row of R96 has its
  meaning (log entry 10). Safe: a run that met it would stop. -/
  | notModelled (mnemonic : String)
  deriving DecidableEq, Repr

/-- The result of a step. -/
abbrev Result := Host.Outcome State Fault Refusal

/-- A display with every pixel off (R350). -/
def blankDisplay (width height : Nat) : Display :=
  List.replicate height (List.replicate width false)

/-- R350: the state RESET leaves, for a configuration and a count of draws (RESET rewinds no draw: log entry 5). Memory
lists nothing, so every address reads as R40 says. -/
def State.afterReset (cfg : Config) (draws : Nat) : State where
  cfg      := cfg
  mem      := []
  v        := Vector.replicate 16 0
  i        := 0
  pc       := BitVec.ofNat 16 progBase
  stack    := []
  dt       := 0
  st       := 0
  key      := Vector.replicate 16 false
  disp     := blankDisplay cfg.width cfg.height
  fault    := none
  response := none
  draws    := draws

/-- The machine right after RESET, with R7's default parameters. -/
def State.reset : State := State.afterReset defaultConfig 0

end Sys2Proof.Machine
end

