-- ==== Sys2Proof/Machine/Memory.lean ====
section
/-! DEFINITION. Memory as a canonical list of cells (20_memory.md R60, R61, R68). -/

namespace Sys2Proof.Machine

/-- The font range 0x050 to 0x09F (R61, R64). -/
def inFont (a : Nat) : Bool := decide (fontBase ≤ a) && decide (a < fontBase + fontSize)

/-- What an unlisted address reads as, its reset contents (R350): the font in its range, zero elsewhere. -/
def Memory.unlisted (font : Vector Byte 80) (a : Nat) : Byte :=
  if inFont a then font.getD (a - fontBase) 0 else 0

/-- The byte at an address: "the last value written to it" (R68), or the reset contents. -/
def Memory.read (font : Vector Byte 80) : Memory → Nat → Byte
  | [], a => Memory.unlisted font a
  | (p, b) :: m, a => if p = a then b else Memory.read font m a

/-- The memory without a cell for `a`. -/
def Memory.erase (m : Memory) (a : Nat) : Memory := m.filter fun c => c.1 != a

/-- A cell put before the first cell of a higher address. -/
def Memory.insert : Memory → Nat → Byte → Memory
  | [], a, b => [(a, b)]
  | (p, c) :: m, a, b => if a < p then (a, b) :: (p, c) :: m else (p, c) :: Memory.insert m a b

/-- Writing one byte. A byte equal to what an unlisted address reads as is not listed. -/
def Memory.write (font : Vector Byte 80) (m : Memory) (a : Nat) (b : Byte) : Memory :=
  if b = Memory.unlisted font a then Memory.erase m a else Memory.insert (Memory.erase m a) a b

/-- Writing bytes in ascending address order (R67). -/
def Memory.writeAll (font : Vector Byte 80) : Memory → Nat → List Byte → Memory
  | m, _, [] => m
  | m, a, b :: bs => Memory.writeAll font (Memory.write font m a b) (a + 1) bs

/-- `write_byte` (R232): under policy Ignore a font byte keeps its value. -/
def Memory.store (policy : FontWritePolicy) (font : Vector Byte 80) (m : Memory) (a : Nat) (b : Byte) : Memory :=
  if inFont a && decide (policy = .ignore) then m else Memory.write font m a b

/-- `write_byte` at `a`, `a + 1`, … in ascending order (R67). -/
def Memory.storeAll (policy : FontWritePolicy) (font : Vector Byte 80) : Memory → Nat → List Byte → Memory
  | m, _, [] => m
  | m, a, b :: bs => Memory.storeAll policy font (Memory.store policy font m a b) (a + 1) bs

/-- The canonical form: strictly rising addresses, all of them in memory, and no cell that says what an unlisted address
reads as. -/
abbrev Memory.wf (font : Vector Byte 80) (m : Memory) : Prop :=
  m.Pairwise (fun c d => c.1 < d.1) ∧ ∀ c ∈ m, c.1 < memSize ∧ c.2 ≠ Memory.unlisted font c.1

end Sys2Proof.Machine
end

