-- ==== Sys2Proof/Machine/Ops.lean ====
section
/-! DEFINITION. The named operations over the state: registers, memory, stack, display, the fetch, and raising a fault
(00_scope.md R11, 20_memory.md, 40_cycle.md, 41_flow.md, 60_exceptions.md). Every register has its one home here. -/

namespace Sys2Proof.Machine

/-- The number of VF (R23). -/
def VF : Nibble := 0xF

/-- `V[x]` (R11, R21). -/
def State.readV (s : State) (x : Nibble) : Byte := s.v[x.toNat]'x.isLt

/-- `V[x] <- b` (R11, R21). -/
def State.writeV (s : State) (x : Nibble) (b : Byte) : State := { s with v := s.v.set x.toNat b x.isLt }

/-- `I <- w` (R25). -/
def State.setI (s : State) (w : Word) : State := { s with i := w }

/-- `pc <- w` (R26). -/
def State.setPc (s : State) (w : Word) : State := { s with pc := w }

/-- The return stack replaced (R28). -/
def State.setStack (s : State) (l : List Word) : State := { s with stack := l }

/-- `DT <- b` (R29). -/
def State.setDt (s : State) (b : Byte) : State := { s with dt := b }

/-- `ST <- b` (R30). -/
def State.setSt (s : State) (b : Byte) : State := { s with st := b }

/-- The display replaced (R32). -/
def State.setDisp (s : State) (d : Display) : State := { s with disp := d }

/-- Memory replaced (R60). -/
def State.setMem (s : State) (m : Memory) : State := { s with mem := m }

/-- `key[k] <- pressed` (R325). -/
def State.setKey (s : State) (k : Nibble) (pressed : Bool) : State :=
  { s with key := s.key.set k.toNat pressed k.isLt }

/-- `key[k]` (R31). -/
def State.keyPressed (s : State) (k : Nibble) : Bool := s.key[k.toNat]'k.isLt

/-- The response of this TICK. -/
def State.respond (s : State) (r : TickResponse) : State := { s with response := some r }

/-- The random byte of this TICK (R128), a free value (log entry 4). -/
def State.randomByte (s : State) : Byte := Config.freeByte s.draws

/-- The next draw is a fresh one. -/
def State.countDraw (s : State) : State := { s with draws := s.draws + 1 }

/-- `MemRead(a, 1)` (R11). Bounds are the caller's check (R63). -/
def State.readMem (s : State) (a : Nat) : Byte := Memory.read s.cfg.font s.mem a

/-- The bytes of a store at `a`, `a + 1`, … by the font policy (R67, R232). Bounds and the fault are the caller's checks
(R63, R64). -/
def State.storeBytes (s : State) (a : Nat) (bs : List Byte) : State :=
  s.setMem (Memory.storeAll s.cfg.fontWritePolicy s.cfg.font s.mem a bs)

/-- `V[k] <- MemRead(base + k, 1)` for `k` from 0 up to `n - 1` (R235). -/
def State.loadBytes (s : State) (base n : Nat) : State :=
  { s with
    v := (List.range n).foldl
      (fun v k => v.set (BitVec.ofNat 4 k).toNat (s.readMem (base + k)) (BitVec.ofNat 4 k).isLt) s.v }

/-- The pixel at row `r`, column `c` (R32); off where there is no such pixel. -/
def Display.pixel (d : Display) (r c : Nat) : Bool := ((d[r]?.getD [])[c]?).getD false

/-- `disp[r][c] <- not disp[r][c]` (R203). -/
def Display.flip (d : Display) (r c : Nat) : Display := d.modify r fun row => row.modify c not

/-- Completing an instruction without a fault (R125). -/
def complete (changed : Bool) (s : State) : Result := .next (s.respond (.ok changed))

/-- R33, R126: the TICK responds `Fault(record)`, and the latch takes the record if it holds none. -/
def State.latch (s : State) (r : FaultRecord) : State :=
  { s with fault := s.fault.or (some r), response := some (.fault r) }

/-- The address the executing instruction was fetched from: PC holds it plus 2 while the instruction executes (R122; log
entry 9). -/
def State.instrAddr (s : State) : Word := s.pc - 2

/-- `raise Fault(kind, bad)` in the execute phase (R126, R300): THE ONE OPERATION THAT TAKES A FAULT. No effect but the
response and the latch; PC stays a + 2. There is no handler and no saved context, so there is no return from one either
(R300, R305). -/
def raise (ins : Instr) (kind : FaultKind) (bad : Option Nat) (s : State) : Result :=
  .next (s.latch { kind := kind, addr := s.instrAddr, word := some (encode ins), bad := bad })

/-- A failed check of a memory access: the fault's kind and its `bad` address (R63, R64). -/
structure AccessFault where
  kind : FaultKind
  bad  : Nat
  deriving DecidableEq, Repr

/-- `check_read(base, n)` (R63, R232): the lowest address above 0xFFF in the range, if any. An empty range has none
(R203, N = 0). -/
def checkRead (base n : Nat) : Option AccessFault :=
  if 0 < n ∧ 0xFFF < base + n - 1 then some ⟨.outOfBounds, max base 0x1000⟩ else none

/-- `min(hit)` (R232): the lowest font address of `base .. base + n - 1`, if any. -/
def firstFontHit (base n : Nat) : Option Nat :=
  if 0 < n ∧ base < fontBase + fontSize ∧ fontBase < base + n then some (max base fontBase) else none

/-- `check_write(base, n)` (R64, R232): bounds first, then the font under policy Fault. -/
def checkWrite (policy : FontWritePolicy) (base n : Nat) : Option AccessFault :=
  match checkRead base n with
  | some f => some f
  | none =>
    match policy with
    | .fault => (firstFontHit base n).map fun p => ⟨.readOnly, p⟩
    | .ignore | .allow => none

/-- An instruction whose check precedes every write (R12): the fault of the check, or the rest of the instruction. -/
def afterCheck (ins : Instr) (check : Option AccessFault) (s : State) (rest : Result) : Result :=
  match check with
  | some f => raise ins f.kind (some f.bad) s
  | none => rest

/-- The skip of R152: PC moves 2 beyond the post-fetch PC when the condition holds. -/
def State.skipIf (s : State) (cond : Bool) : State := s.setPc (if cond then s.pc + 2 else s.pc)

/-- What a fetch finds (R121). -/
inductive Fetched where
  | word (w : Word)
  | outOfBounds (bad : Nat)
  deriving DecidableEq, Repr

/-- R120, R121: the word at PC, or the first address above 0xFFF among PC and PC + 1. -/
def State.fetch (s : State) : Fetched :=
  if 0xFFF < s.pc.toNat + 1 then .outOfBounds (max s.pc.toNat 0x1000)
  else .word (bigEndian (s.readMem s.pc.toNat) (s.readMem (s.pc.toNat + 1)))

/-- R122: PC after a successful fetch. -/
def State.advance (s : State) : State := s.setPc (s.pc + 2)

/-- R121: a fetch fault sets the latch and moves nothing, PC neither. -/
def State.fetchFault (s : State) (bad : Nat) : State :=
  s.latch { kind := .outOfBounds, addr := s.pc, word := none, bad := some bad }

/-- R127: an unknown word's only effects are the PC advance, made before, and the response. -/
def State.unknownOpcode (s : State) (w : Word) : State := s.respond (.unknown w)

/-- LOAD's copy and PC (R70), also how the host's fetch words come to stand in memory. -/
def State.loadImage (s : State) (bytes : List Byte) : State :=
  (s.setMem (Memory.writeAll s.cfg.font s.mem progBase bytes)).setPc (BitVec.ofNat 16 progBase)

/-- `s` with the two bytes of `w` where the next fetch reads. Where PC can fetch nothing (R121), PC first goes to the entry
point, as LOAD sets it (log entry 11). -/
def State.placeWord (s : State) (w : Word) : State :=
  let t := if 0xFFF < s.pc.toNat + 1 then s.setPc (BitVec.ofNat 16 progBase) else s
  t.setMem (Memory.writeAll t.cfg.font t.mem t.pc.toNat [highByte w, lowByte w])

end Sys2Proof.Machine
end

