-- ==== Sys2Proof/Machine/Flags.lean ====
section
/-! DEFINITION. Every flag computation: VF is the flag (10_state.md R23, R24; 42_alu.md; 44_index_memory.md R231). -/

namespace Sys2Proof.Machine

/-- A flag as the byte VF holds. -/
def flagByte (b : Bool) : Byte := if b then 1 else 0

/-- R177: "VF = 1 exactly when the true sum exceeds 255". -/
def carryOut (x y : Byte) : Bool := decide (255 < x.toNat + y.toNat)

/-- R178, R180: no borrow in `x - y` exactly when `x >= y`. -/
def noBorrow (x y : Byte) : Bool := decide (y.toNat ≤ x.toNat)

/-- R179: bit 0, shifted out to the right. -/
def lowBitOut (s : Byte) : Bool := s.getLsbD 0

/-- R181: bit 7, shifted out to the left. -/
def highBitOut (s : Byte) : Bool := s.getLsbD 7

/-- R231: the stored sum is above 0x0FFF. -/
def indexOverflow (sum : Word) : Bool := decide (0x0FFF < sum.toNat)

/-- R170: the result first, the flag last, so that VF as destination ends holding the flag. -/
def State.writeResultThenFlag (s : State) (x : Nibble) (result : Byte) (flag : Bool) : State :=
  (s.writeV x result).writeV VF (flagByte flag)

/-- R231: what `FX1E_VF` makes of VF, given the stored sum and what VF holds. -/
def indexFlagByte (policy : IndexFlagPolicy) (sum : Word) (old : Byte) : Byte :=
  match policy with
  | .noFlag => old
  | .setOnly => if indexOverflow sum then 1 else old
  | .setOrClear => flagByte (indexOverflow sum)

/-- R231: the flag of a sum stored in I. -/
def State.indexFlag (s : State) (sum : Word) : State :=
  s.writeV VF (indexFlagByte s.cfg.fx1eVf sum (s.readV VF))

end Sys2Proof.Machine
end

