-- ==== Sys2Proof/Machine/Operands.lean ====
section
/-! DEFINITION. The operand forms: addresses, the shift source, the key index, sprite places, register ranges, BCD digits. -/

namespace Sys2Proof.Machine

/-- `zext_16(NNN)` (R94). -/
def addrOperand (nnn : Addr12) : Word := nnn.setWidth 16

/-- A register's byte widened with zero bits (R10). -/
def zext16 (b : Byte) : Word := b.setWidth 16

/-- R179, R181: the value a shift shifts, `V[Y]` under `QUIRK_SHIFT_VY`, else `V[X]`. -/
def State.shiftSource (s : State) (x y : Nibble) : Byte :=
  if s.cfg.quirkShiftVy then s.readV y else s.readV x

/-- `resolve_key` (R260): a key number, or none where the policy makes the index a fault. -/
def resolveKey (policy : KeyIndexPolicy) (v : Byte) : Option Nibble :=
  if v.toNat ≤ 0xF then some (v.setWidth 4)
  else
    match policy with
    | .fault => none
    | .mask => some (v.setWidth 4)

/-- R266: the ascending scan of the keys, its first pressed one. -/
def State.firstPressed (s : State) : Option Nibble :=
  ((List.range 16).map (BitVec.ofNat 4)).find? s.keyPressed

/-- R202: the column of a sprite's left edge. -/
def State.spriteColumn (s : State) (x : Nibble) : Nat := (s.readV x).toNat % s.cfg.width

/-- R202: the row of a sprite's top edge. -/
def State.spriteRow (s : State) (y : Nibble) : Nat := (s.readV y).toNat % s.cfg.height

/-- R210: the address of the glyph for the low nibble of a byte. -/
def glyphAddress (v : Byte) : Word := BitVec.ofNat 16 (fontBase + 5 * (v.toNat % 16))

/-- R234: `V[0], …, V[X]`, captured before any write. -/
def State.registersUpTo (s : State) (x : Nibble) : List Byte :=
  (List.range (x.toNat + 1)).map fun k => s.readV (BitVec.ofNat 4 k)

/-- R233: hundreds, tens and ones of a byte. -/
def bcdDigits (v : Byte) : List Byte :=
  [BitVec.ofNat 8 (v.toNat / 100), BitVec.ofNat 8 (v.toNat / 10 % 10), BitVec.ofNat 8 (v.toNat % 10)]

/-- R236: under `QUIRK_LDST_INC_I`, I moves past the `X + 1` bytes transferred. -/
def State.indexAfterTransfer (s : State) (x : Nibble) : State :=
  s.setI (if s.cfg.quirkLdstIncI then s.i + BitVec.ofNat 16 (x.toNat + 1) else s.i)

end Sys2Proof.Machine
end

