-- ==== Sys2Proof/Machine/Alu.lean ====
section
/-! DEFINITION. Register and ALU instructions (42_alu.md). Arithmetic is modulo 256 (R182); operands are read before any
write, and the flag is written last (R170). -/

namespace Sys2Proof.Machine

/-- `6XNN` LD Vx, nn (R171). -/
def execLdImm (x : Nibble) (nn : Byte) (s : State) : Result :=
  complete false (s.writeV x nn)

/-- `7XNN` ADD Vx, nn (R172): no carry is recorded. -/
def execAddImm (x : Nibble) (nn : Byte) (s : State) : Result :=
  complete false (s.writeV x (s.readV x + nn))

/-- `8XY0` LD Vx, Vy (R173). -/
def execLdReg (x y : Nibble) (s : State) : Result :=
  complete false (s.writeV x (s.readV y))

/-- `8XY1` OR Vx, Vy (R174): VF is not cleared. -/
def execOrReg (x y : Nibble) (s : State) : Result :=
  complete false (s.writeV x (s.readV x ||| s.readV y))

/-- `8XY2` AND Vx, Vy (R175). -/
def execAndReg (x y : Nibble) (s : State) : Result :=
  complete false (s.writeV x (s.readV x &&& s.readV y))

/-- `8XY3` XOR Vx, Vy (R176). -/
def execXorReg (x y : Nibble) (s : State) : Result :=
  complete false (s.writeV x (s.readV x ^^^ s.readV y))

/-- `8XY4` ADD Vx, Vy (R177). -/
def execAddReg (x y : Nibble) (s : State) : Result :=
  complete false
    (s.writeResultThenFlag x (s.readV x + s.readV y) (carryOut (s.readV x) (s.readV y)))

/-- `8XY5` SUB Vx, Vy (R178). -/
def execSubReg (x y : Nibble) (s : State) : Result :=
  complete false
    (s.writeResultThenFlag x (s.readV x - s.readV y) (noBorrow (s.readV x) (s.readV y)))

/-- `8XY7` SUBN Vx, Vy (R180). -/
def execSubnReg (x y : Nibble) (s : State) : Result :=
  complete false
    (s.writeResultThenFlag x (s.readV y - s.readV x) (noBorrow (s.readV y) (s.readV x)))

/-- `8XY6` SHR Vx, Vy (R179). -/
def execShr (x y : Nibble) (s : State) : Result :=
  complete false
    (s.writeResultThenFlag x (s.shiftSource x y >>> 1) (lowBitOut (s.shiftSource x y)))

/-- `8XYE` SHL Vx, Vy (R181). -/
def execShl (x y : Nibble) (s : State) : Result :=
  complete false
    (s.writeResultThenFlag x (s.shiftSource x y <<< 1) (highBitOut (s.shiftSource x y)))

/-- `CXNN` RND Vx, nn (R190): the draw is a free value. -/
def execRnd (x : Nibble) (nn : Byte) (s : State) : Result :=
  complete false ((s.writeV x (s.randomByte &&& nn)).countDraw)

end Sys2Proof.Machine
end

