-- ==== Sys2Proof/Machine/Display.lean ====
section
/-! DEFINITION. The display and the font (43_display.md). -/

namespace Sys2Proof.Machine

/-- A draw in progress: the pixels, and whether one has gone from on to off (R203). -/
structure Blit where
  disp : Display
  hit  : Bool
  deriving DecidableEq, Repr

/-- One bit of a row byte (R201, R203): bit 7 - `j` at column `x0 + j`. A column from `W` on is clipped (R204). -/
def blitBit (width row x0 : Nat) (b : Byte) (acc : Blit) (j : Nat) : Blit :=
  if width ≤ x0 + j then acc
  else if b.getLsbD (7 - j) then
    { disp := Display.flip acc.disp row (x0 + j), hit := acc.hit || Display.pixel acc.disp row (x0 + j) }
  else acc

/-- The eight bits of a row byte, most significant first (R201). -/
def blitRow (width row x0 : Nat) (b : Byte) (acc : Blit) : Blit :=
  (List.range 8).foldl (blitBit width row x0 b) acc

/-- The `n` rows of the sprite at I, top row first. A row from `H` on is clipped and not read (R203, R204). -/
def State.blitSprite (s : State) (x0 y0 n : Nat) : Blit :=
  (List.range n).foldl
    (fun acc k =>
      if s.cfg.height ≤ y0 + k then acc
      else blitRow s.cfg.width (y0 + k) x0 (s.readMem (s.i.toNat + k)) acc)
    { disp := s.disp, hit := false }

/-- `00E0` CLS (R200). -/
def execCls (s : State) : Result :=
  complete true (s.setDisp (blankDisplay s.cfg.width s.cfg.height))

/-- The draw itself, after its check: the pixels and VF, the coordinates read before VF is written (R203). -/
def State.drawSprite (s : State) (x y n : Nibble) : State :=
  let out := s.blitSprite (s.spriteColumn x) (s.spriteRow y) n.toNat
  (s.setDisp out.disp).writeV VF (flagByte out.hit)

/-- `DXYN` DRW Vx, Vy, n (R203): all `n` bytes are checked before anything is drawn. -/
def execDrw (x y n : Nibble) (s : State) : Result :=
  afterCheck (.drw x y n) (checkRead s.i.toNat n.toNat) s (complete true (s.drawSprite x y n))

/-- `FX29` LD F, Vx (R210). -/
def execLdFVx (x : Nibble) (s : State) : Result :=
  complete false (s.setI (glyphAddress (s.readV x)))

end Sys2Proof.Machine
end

