-- ==== Sys2Proof/Machine/Flow.lean ====
section
/-! DEFINITION. Control flow and the return stack (41_flow.md). Each meaning runs on the state after the fetch: PC = a + 2. -/

namespace Sys2Proof.Machine

/-- `push(v)` (R141): none where the stack is full. -/
def State.push (s : State) (w : Word) : Option State :=
  if stackCap ≤ s.stack.length then none else some (s.setStack (s.stack ++ [w]))

/-- `pop()` (R142): the top entry and the state without it, none where the stack is empty. -/
def State.pop (s : State) : Option (Word × State) :=
  match s.stack.getLast? with
  | none => none
  | some w => some (w, s.setStack s.stack.dropLast)

/-- `00EE` RET (R143). -/
def execRet (s : State) : Result :=
  match s.pop with
  | none => raise .ret .stackUnderflow none s
  | some (w, t) => complete false (t.setPc w)

/-- `1NNN` JP nnn (R144). -/
def execJp (nnn : Addr12) (s : State) : Result :=
  complete false (s.setPc (addrOperand nnn))

/-- `2NNN` CALL nnn (R145): the pushed address is the post-fetch PC. -/
def execCall (nnn : Addr12) (s : State) : Result :=
  match s.push s.pc with
  | none => raise (.call nnn) .stackOverflow none s
  | some t => complete false (t.setPc (addrOperand nnn))

/-- `BNNN` JP V0, nnn (R146): the sum is not masked. -/
def execJpV0 (nnn : Addr12) (s : State) : Result :=
  complete false (s.setPc (addrOperand nnn + zext16 (s.readV 0)))

/-- `3XNN` SE Vx, nn (R147). -/
def execSeImm (x : Nibble) (nn : Byte) (s : State) : Result :=
  complete false (s.skipIf (s.readV x == nn))

/-- `4XNN` SNE Vx, nn (R148). -/
def execSneImm (x : Nibble) (nn : Byte) (s : State) : Result :=
  complete false (s.skipIf (s.readV x != nn))

/-- `5XY0` SE Vx, Vy (R149). -/
def execSeReg (x y : Nibble) (s : State) : Result :=
  complete false (s.skipIf (s.readV x == s.readV y))

/-- `9XY0` SNE Vx, Vy (R150). -/
def execSneReg (x y : Nibble) (s : State) : Result :=
  complete false (s.skipIf (s.readV x != s.readV y))

end Sys2Proof.Machine
end

