-- ==== Sys2Proof/Machine/IndexMemory.lean ====
section
/-! DEFINITION. The index register and memory transfers (44_index_memory.md). -/

namespace Sys2Proof.Machine

/-- `ANNN` LD I, nnn (R230). -/
def execLdI (nnn : Addr12) (s : State) : Result :=
  complete false (s.setI (addrOperand nnn))

/-- `FX1E` ADD I, Vx (R231): V[X] is read before the flag may overwrite it. -/
def execAddIVx (x : Nibble) (s : State) : Result :=
  complete false ((s.setI (s.i + zext16 (s.readV x))).indexFlag (s.i + zext16 (s.readV x)))

/-- `FX33` LD B, Vx (R233). -/
def execLdBVx (x : Nibble) (s : State) : Result :=
  afterCheck (.ldBVx x) (checkWrite s.cfg.fontWritePolicy s.i.toNat 3) s
    (complete false (s.storeBytes s.i.toNat (bcdDigits (s.readV x))))

/-- `FX55` LD [I], Vx (R234, R236). -/
def execStoreRegs (x : Nibble) (s : State) : Result :=
  afterCheck (.storeRegs x) (checkWrite s.cfg.fontWritePolicy s.i.toNat (x.toNat + 1)) s
    (complete false ((s.storeBytes s.i.toNat (s.registersUpTo x)).indexAfterTransfer x))

/-- `FX65` LD Vx, [I] (R235, R236). -/
def execLoadRegs (x : Nibble) (s : State) : Result :=
  afterCheck (.loadRegs x) (checkRead s.i.toNat (x.toNat + 1)) s
    (complete false ((s.loadBytes s.i.toNat (x.toNat + 1)).indexAfterTransfer x))

end Sys2Proof.Machine
end

