-- ==== Sys2Proof/Machine/TimerKey.lean ====
section
/-! DEFINITION. Timer and key instructions (45_timer_key.md). -/

namespace Sys2Proof.Machine

/-- A skip on the level of the key that V[x] names (R260): the key's fault, or the skip. -/
def skipOnKey (ins : Instr) (x : Nibble) (wanted : Bool) (s : State) : Result :=
  match resolveKey s.cfg.keyIndexPolicy (s.readV x) with
  | none => raise ins .keyIndexOutOfRange (some (s.readV x).toNat) s
  | some k => complete false (s.skipIf (s.keyPressed k == wanted))

/-- `EX9E` SKP Vx (R261). -/
def execSkp (x : Nibble) (s : State) : Result := skipOnKey (.skp x) x true s

/-- `EXA1` SKNP Vx (R262). -/
def execSknp (x : Nibble) (s : State) : Result := skipOnKey (.sknp x) x false s

/-- `FX07` LD Vx, DT (R263). -/
def execLdVxDt (x : Nibble) (s : State) : Result :=
  complete false (s.writeV x s.dt)

/-- `FX15` LD DT, Vx (R264). -/
def execLdDtVx (x : Nibble) (s : State) : Result :=
  complete false (s.setDt (s.readV x))

/-- `FX18` LD ST, Vx (R265). -/
def execLdStVx (x : Nibble) (s : State) : Result :=
  complete false (s.setSt (s.readV x))

/-- `FX0A` LD Vx, K (R266): with no key pressed, PC goes back to the instruction. -/
def execLdVxK (x : Nibble) (s : State) : Result :=
  match s.firstPressed with
  | some k => complete false (s.writeV x (k.setWidth 8))
  | none => complete false (s.setPc (s.pc - 2))

end Sys2Proof.Machine
end

