-- ==== Sys2Proof/Machine/Step.lean ====
section
/-! DEFINITION. One step is one TICK (40_cycle.md R120). -/

namespace Sys2Proof.Machine

/-- TICK (R120): fetch (R121), advance (R122), decode (R123), execute (R124). The response stands in `State.response`. -/
def step (s : State) : Host.Outcome State Fault Refusal :=
  match s.fetch with
  | .outOfBounds bad => .next (s.fetchFault bad)
  | .word w =>
    match decode w with
    | .instr i => exec i s.advance
    | .unknown u => .next (s.advance.unknownOpcode u)

/-- `s` with the opcode table's word of `nbits` bits placed where the next step fetches. -/
def State.withFetchWord (s : State) (nbits w : Nat) : State := s.placeWord (tableWord nbits w)

end Sys2Proof.Machine
end

