-- ==== Sys2Proof/WellFormed.lean ====
section
/-! DEFINITION. The static checks: on a configuration, on the framebuffer colours and on a program image (00_scope.md R7,
20_memory.md R70). An instruction term needs none: each operand's type has exactly the width of its field (R92), so an
ill-formed instruction cannot be written, and `Instr.wellFormed` says so. -/

namespace Sys2Proof

/-- R7: `W` and `H` are at least 1. -/
def Config.wellFormed (c : Config) : Bool :=
  decide (1 ≤ c.width) && decide (1 ≤ c.height)

/-- R7, R330: `FG ≠ BG`. -/
def Colours.wellFormed (c : Colours) : Bool :=
  decide (c.fg ≠ c.bg)

/-- R70: a program image has at most `MAX_PROG` = 3584 bytes. -/
def imageWellFormed (bytes : List Byte) : Bool :=
  decide (bytes.length ≤ Machine.maxProg)

/-- A register number, a key number or a row count fits 4 bits. -/
def nibbleFits (x : Nibble) : Bool := decide (x.toNat < 16)

/-- An immediate fits 8 bits. -/
def byteFits (nn : Byte) : Bool := decide (nn.toNat < 256)

/-- An address fits 12 bits. -/
def addrFits (nnn : Addr12) : Bool := decide (nnn.toNat < 4096)

/-- Every operand fits its field of R92. The operand types make this hold of every instruction
(`Laws.instr_wellFormed`). -/
def Instr.wellFormed : Instr → Bool
  | .cls | .ret => true
  | .jp nnn | .call nnn | .ldI nnn | .jpV0 nnn => addrFits nnn
  | .seImm x nn | .sneImm x nn | .ldImm x nn | .addImm x nn | .rnd x nn => nibbleFits x && byteFits nn
  | .seReg x y | .ldReg x y | .orReg x y | .andReg x y | .xorReg x y | .addReg x y | .subReg x y
  | .shr x y | .subnReg x y | .shl x y | .sneReg x y => nibbleFits x && nibbleFits y
  | .drw x y n => nibbleFits x && nibbleFits y && nibbleFits n
  | .skp x | .sknp x | .ldVxDt x | .ldVxK x | .ldDtVx x | .ldStVx x | .addIVx x | .ldFVx x | .ldBVx x
  | .storeRegs x | .loadRegs x => nibbleFits x

end Sys2Proof
end

