-- ==== Sys2Proof/Machine/HostOps.lean ====
section
/-! DEFINITION. The host's operations (10_state.md R50): RESET, LOAD, TICK, TICK_TIMERS, SET_KEY and the four read-outs.
`step` is TICK alone; the others are here, and `performAll` runs any schedule of them (R51, R321; log entry 1). -/

namespace Sys2Proof.Machine

/-- R50's operations. A key index is 4 bits wide, so none is out of range (R325). TICK's random byte is the free value
of R128 (log entry 4). -/
inductive HostOp where
  | reset
  | load (bytes : List Byte)
  | tick
  | tickTimers
  | setKey (k : Nibble) (pressed : Bool)
  | readFb
  | readDisplay
  | readSound
  | readFault
  deriving DecidableEq, Repr

/-- R50's responses. -/
inductive HostResponse where
  | none
  | loadOk
  | programTooLarge
  | tick (r : Option TickResponse)
  | framebuffer (bytes : List Byte)
  | display (d : Display)
  | sound (st : Byte)
  | faultLatch (f : Option FaultRecord)
  deriving DecidableEq, Repr

/-- RESET (R350, R351). The configuration is fixed for the life of the block (R20), and no draw is rewound (log entry 5). -/
def State.hostReset (s : State) : State := State.afterReset s.cfg s.draws

/-- LOAD (R70, R71): the response and the state. -/
def State.hostLoad (s : State) (bytes : List Byte) : HostResponse × State :=
  if imageWellFormed bytes then (.loadOk, s.loadImage bytes) else (.programTooLarge, s)

/-- R320: one less, stopping at 0. -/
def countDown (b : Byte) : Byte := if 0 < b.toNat then b - 1 else 0

/-- TICK_TIMERS (R320). -/
def State.hostTickTimers (s : State) : State := (s.setDt (countDown s.dt)).setSt (countDown s.st)

/-- R330: the four bytes of a pixel, R, G, B, A. -/
def pixelBytes (c : Colours) (on : Bool) : List Byte :=
  let p := if on then c.fg else c.bg
  [p.r, p.g, p.b, p.a]

/-- READ_FB (R330): row-major from the top left, four bytes a pixel. -/
def State.readFramebuffer (s : State) (c : Colours) : List Byte :=
  s.disp.flatMap fun row => row.flatMap (pixelBytes c)

/-- One host operation, for the colours `FG` and `BG`: its response and the state after it. -/
def perform (c : Colours) (op : HostOp) (s : State) : Host.Outcome (HostResponse × State) Fault Refusal :=
  match op with
  | .reset => .next (.none, s.hostReset)
  | .load bytes => .next (s.hostLoad bytes)
  | .tick =>
    match step s with
    | .next t => .next (.tick t.response, t)
    | .fault f => .fault f
    | .refused r => .refused r
  | .tickTimers => .next (.none, s.hostTickTimers)
  | .setKey k pressed => .next (.none, s.setKey k pressed)
  | .readFb => .next (.framebuffer (s.readFramebuffer c), s)
  | .readDisplay => .next (.display s.disp, s)
  | .readSound => .next (.sound s.st, s)
  | .readFault => .next (.faultLatch s.fault, s)

/-- A schedule of host operations, one after another (R51): the responses in order and the state after the last. -/
def performAll (c : Colours) : List HostOp → State → Host.Outcome (List HostResponse × State) Fault Refusal
  | [], s => .next ([], s)
  | op :: ops, s =>
    match perform c op s with
    | .next (r, t) =>
      match performAll c ops t with
      | .next (rs, u) => .next (r :: rs, u)
      | .fault f => .fault f
      | .refused e => .refused e
    | .fault f => .fault f
    | .refused e => .refused e

end Sys2Proof.Machine
end

