-- ==== Sys2Proof/Safety.lean ====
section
/-! DEFINITION. What a claim is stated in: a safe run, the machine's invariant, and the frame of a change. -/

namespace Sys2Proof.Machine

/-- R33, 92 D7: no fault has been recorded since the last RESET. -/
def NoFaultRecorded (s : State) : Prop := s.fault = none

/-- A safe run of `k` ticks from `s`: each ends in a next state and no fault is recorded (R305 leaves the rest to the
host). -/
def SafeRun (k : Nat) (s : State) : Prop :=
  ∃ t, Sys2Proof.core.run k s = .next t ∧ NoFaultRecorded t

/-- R301's last column but one: which extra information each kind carries. -/
def FaultRecord.wellFormed (r : FaultRecord) : Prop :=
  match r.kind with
  | .stackOverflow | .stackUnderflow => r.bad = none ∧ r.word ≠ none
  | .outOfBounds => ∃ a, r.bad = some a ∧ 0xFFF < a
  | .keyIndexOutOfRange => (∃ v, r.bad = some v ∧ 0xF < v ∧ v < 256) ∧ r.word ≠ none
  | .readOnly => (∃ a, r.bad = some a ∧ inFont a = true) ∧ r.word ≠ none

/-- The display has `H` rows of `W` pixels (R32). -/
def Display.shaped (cfg : Config) (d : Display) : Prop :=
  d.length = cfg.height ∧ ∀ row ∈ d, row.length = cfg.width

/-- THE INVARIANT: the configuration is well formed (R7), memory keeps its canonical form (R60), the stack holds at most
16 entries (R28), the display keeps its shape (R32) and a latched record is well formed (R33). -/
structure State.Inv (s : State) : Prop where
  config  : s.cfg.wellFormed = true
  memory  : Memory.wf s.cfg.font s.mem
  stack   : s.stack.length ≤ stackCap
  display : Display.shaped s.cfg s.disp
  latch   : ∀ r, s.fault = some r → r.wellFormed

/-- R64, R211: every font address holds its byte of `FONT`. -/
def State.FontIntact (s : State) : Prop :=
  ∀ a, inFont a = true → s.readMem a = s.cfg.font.getD (a - fontBase) 0

/-- What a change may touch; everything not named stays (`OnlyTouches`). `mem` is a start address and a byte count. -/
structure Touched where
  regs  : List Nibble := []
  i     : Bool := false
  pc    : Bool := false
  stack : Bool := false
  dt    : Bool := false
  st    : Bool := false
  disp  : Bool := false
  fault : Bool := false
  draws : Bool := false
  mem   : Nat × Nat := (0, 0)

/-- The frame: from `s` to `t`, what `c` does not name is unchanged, every byte of memory outside `c.mem` among it. The
keys and the configuration are never touched; the response is the TICK's output and is stated beside the frame. -/
structure OnlyTouches (c : Touched) (s t : State) : Prop where
  regs   : ∀ r, r ∉ c.regs → t.readV r = s.readV r
  i      : c.i = false → t.i = s.i
  pc     : c.pc = false → t.pc = s.pc
  stack  : c.stack = false → t.stack = s.stack
  dt     : c.dt = false → t.dt = s.dt
  st     : c.st = false → t.st = s.st
  disp   : c.disp = false → t.disp = s.disp
  fault  : c.fault = false → t.fault = s.fault
  draws  : c.draws = false → t.draws = s.draws
  key    : t.key = s.key
  cfg    : t.cfg = s.cfg
  memory : ∀ a, (a < c.mem.1 ∨ c.mem.1 + c.mem.2 ≤ a) → t.readMem a = s.readMem a

/-- R201, R203: the sprite of `n` rows at I, its corner at column `x0` and row `y0`, has a 1 bit for the pixel at row `r`,
column `c`. -/
def State.spriteBit (s : State) (x0 y0 n r c : Nat) : Bool :=
  decide (y0 ≤ r ∧ r < y0 + n ∧ x0 ≤ c ∧ c < x0 + 8) && (s.readMem (s.i.toNat + (r - y0))).getLsbD (7 - (c - x0))

/-- R22: the registers an instruction writes as its destination. -/
def destinations : Instr → List Nibble
  | .ldImm x _ | .addImm x _ | .ldReg x _ | .orReg x _ | .andReg x _ | .xorReg x _ | .addReg x _ | .subReg x _
  | .shr x _ | .subnReg x _ | .shl x _ | .rnd x _ | .ldVxDt x | .ldVxK x => [x]
  | .loadRegs x => (List.range (x.toNat + 1)).map (BitVec.ofNat 4)
  | .cls | .ret | .jp _ | .call _ | .seImm _ _ | .sneImm _ _ | .seReg _ _ | .sneReg _ _ | .ldI _ | .jpV0 _
  | .drw _ _ _ | .skp _ | .sknp _ | .ldDtVx _ | .ldStVx _ | .addIVx _ | .ldFVx _ | .ldBVx _ | .storeRegs _ => []

/-- R24: the instructions that write VF implicitly, whatever X is. -/
def writesFlag (cfg : Config) : Instr → Bool
  | .addReg _ _ | .subReg _ _ | .subnReg _ _ | .shr _ _ | .shl _ _ | .drw _ _ _ => true
  | .addIVx _ => decide (cfg.fx1eVf ≠ .noFlag)
  | .cls | .ret | .jp _ | .call _ | .seImm _ _ | .sneImm _ _ | .seReg _ _ | .sneReg _ _ | .ldImm _ _ | .addImm _ _
  | .ldReg _ _ | .orReg _ _ | .andReg _ _ | .xorReg _ _ | .ldI _ | .jpV0 _ | .rnd _ _ | .skp _ | .sknp _ | .ldVxDt _
  | .ldVxK _ | .ldDtVx _ | .ldStVx _ | .ldFVx _ | .ldBVx _ | .storeRegs _ | .loadRegs _ => false

/-- The word at PC (R65): the byte at PC in bits 15 to 8, the next byte in bits 7 to 0. -/
def State.wordAtPc (s : State) : Word :=
  (s.readMem s.pc.toNat).setWidth 16 <<< 8 ||| (s.readMem (s.pc.toNat + 1)).setWidth 16

/-- R126, R300: from `s`, the state in which the instruction executes, `t` is what raising a fault leaves: the response and
the latch hold the record of the instruction at PC − 2 with the word `w`, and nothing else has changed. -/
def FaultRaised (w : Word) (kind : FaultKind) (bad : Option Nat) (s t : State) : Prop :=
  let r : FaultRecord := { kind := kind, addr := s.pc - 2, word := some w, bad := bad }
  t = { s with response := some (.fault r), fault := (match s.fault with | none => some r | some f => some f) }

end Sys2Proof.Machine
end

