-- ==== Sys2Proof/Certificates/Slice0/Obligations.lean ====
section
/-! DEFINITION. The statements for the provers. `exec i s` runs an instruction on the state after the fetch, so in a
statement about `exec` the spec's `a + 2` is `s.pc`. -/

open Sys2Proof Sys2Proof.Machine

/-! ### Encoding -/

/-- 30_encoding.md R92, R96, R97: decoding the word of any instruction, whatever its operands, gives it back. -/
def Obligations.DecodeOfEncodeIsTheInstruction : Prop :=
  ∀ i : Instr, decode (encode i) = .instr i

/-- R97: every bit of an instruction's word is in its fields or its fixed part, so the word can be put together again. -/
def Obligations.DecodedInstructionReencodesToItsWord : Prop :=
  ∀ (w : Word) (i : Instr), decode w = .instr i → encode i = w

/-- R98: the unknown words, family by family, and no others. -/
def Obligations.UnknownWordsAreExactlyTheListedOnes : Prop :=
  (∀ w u : Word, decode w = .unknown u → u = w) ∧
  ∀ w : Word, decode w = .unknown w ↔
    (w.toNat < 0x1000 ∧ w ≠ 0x00E0 ∧ w ≠ 0x00EE) ∨
    (w &&& 0xF000 = 0x5000 ∧ w &&& 0x000F ≠ 0) ∨
    (w &&& 0xF000 = 0x8000 ∧
      (w &&& 0x000F = 0x8 ∨ w &&& 0x000F = 0x9 ∨ w &&& 0x000F = 0xA ∨ w &&& 0x000F = 0xB ∨ w &&& 0x000F = 0xC ∨
        w &&& 0x000F = 0xD ∨ w &&& 0x000F = 0xF)) ∨
    (w &&& 0xF000 = 0x9000 ∧ w &&& 0x000F ≠ 0) ∨
    (w &&& 0xF000 = 0xE000 ∧ w &&& 0x00FF ≠ 0x9E ∧ w &&& 0x00FF ≠ 0xA1) ∨
    (w &&& 0xF000 = 0xF000 ∧ w &&& 0x00FF ≠ 0x07 ∧ w &&& 0x00FF ≠ 0x0A ∧ w &&& 0x00FF ≠ 0x15 ∧ w &&& 0x00FF ≠ 0x18 ∧
      w &&& 0x00FF ≠ 0x1E ∧ w &&& 0x00FF ≠ 0x29 ∧ w &&& 0x00FF ≠ 0x33 ∧ w &&& 0x00FF ≠ 0x55 ∧ w &&& 0x00FF ≠ 0x65)

/-- R96, R99, R100: a word decodes to the instruction of the one row of the opcode map that matches it, or is unknown and
no row matches it. -/
def Obligations.DecoderFollowsTheOpcodeMap : Prop :=
  opcodeTable.length = 34 ∧
  ∀ w : Word,
    (∃ i, decode w = .instr i ∧ opcodeRow i ∈ opcodeTable ∧ rowMatches (opcodeRow i) w = true ∧
      ∀ r ∈ opcodeTable, rowMatches r w = true → r = opcodeRow i) ∨
    (decode w = .unknown w ∧ ∀ r ∈ opcodeTable, rowMatches r w = false)

/-- 95_test_vectors.md, words of every family: each decodes to the instruction the spec names. -/
def Obligations.SpecWordsDecodeToTheirInstructions : Prop :=
  decode 0x00E0 = .instr .cls ∧ decode 0x00EE = .instr .ret ∧ decode 0x120C = .instr (.jp 0x20C) ∧
  decode 0x3305 = .instr (.seImm 3 0x05) ∧ decode 0x8124 = .instr (.addReg 1 2) ∧ decode 0xD125 = .instr (.drw 1 2 5) ∧
  decode 0xA300 = .instr (.ldI 0x300) ∧ decode 0xFA33 = .instr (.ldBVx 0xA) ∧ decode 0xE59E = .instr (.skp 5) ∧
  decode 0xF30A = .instr (.ldVxK 3) ∧ decode 0x0123 = .unknown 0x0123 ∧ decode 0x5121 = .unknown 0x5121

/-! ### The step -/

/-- 40_cycle.md R120, R122, R124: where the word at PC decodes to an instruction, the step is the instruction run with PC
moved 2 on. -/
def Obligations.StepRunsTheDecodedInstruction : Prop :=
  ∀ (s : State) (i : Instr), s.pc.toNat + 1 ≤ 0xFFF → decode s.wordAtPc = .instr i →
    step s = exec i { s with pc := s.pc + 2 }

/-- R127: an unknown word moves PC by 2 once and responds `Unknown(w)`; the latch and everything else stay. -/
def Obligations.UnknownWordOnlyAdvancesPc : Prop :=
  ∀ s : State, s.pc.toNat + 1 ≤ 0xFFF → decode s.wordAtPc = .unknown s.wordAtPc →
    step s = .next { s with pc := s.pc + 2, response := some (.unknown s.wordAtPc) }

/-- R121: the fetch reads the two bytes at PC big-endian; at 0xFFF or above it faults OutOfBounds, moves nothing but the
latch, and faults with the same record at every later TICK. -/
def Obligations.FetchPastTheEndFaults : Prop :=
  ∀ s : State,
    (s.pc.toNat + 1 ≤ 0xFFF → s.fetch = .word s.wordAtPc) ∧
    (0xFFF < s.pc.toNat + 1 →
      ∃ r : FaultRecord,
        r = { kind := .outOfBounds, addr := s.pc, word := none,
              bad := some (if 0xFFF < s.pc.toNat then s.pc.toNat else 0x1000) } ∧
        ∃ t, step s = .next t ∧
          t = { s with response := some (.fault r),
                       fault := (match s.fault with | none => some r | some f => some f) } ∧
          step t = .next t)

/-- The model's `withFetchWord` (log entry 11): the very next step runs exactly the instruction of the opcode table's word,
from every state. -/
def Obligations.PlacedWordIsTheNextInstruction : Prop :=
  ∀ (s : State) (w : Nat) (i : Instr), decodeTableWord 16 w = some i →
    step (s.withFetchWord 16 w) =
      exec i { s.withFetchWord 16 w with pc := (s.withFetchWord 16 w).pc + 2 }

/-- R130: every TICK completes with a response, and FX0A with no key pressed completes with PC back at its own address. -/
def Obligations.EveryTickCompletesWithAResponse : Prop :=
  (∀ s : State, ∃ t r, step s = .next t ∧ t.response = some r) ∧
  ∀ (s : State) (x : Nibble), s.pc.toNat + 1 ≤ 0xFFF → decode s.wordAtPc = .instr (.ldVxK x) →
    (∀ k, s.keyPressed k = false) → step s = .next { s with response := some (.ok false) }

/-- R125: an instruction responds `Ok(changed)` or a fault; `changed` is true exactly for 00E0 and DXYN; nothing reads the
last response. -/
def Obligations.ChangedIsTrueExactlyForClearAndDraw : Prop :=
  (∀ (i : Instr) (s : State), ∃ t, exec i s = .next t ∧
    ((∃ r, t.response = some (.fault r)) ∨
      ∃ changed, t.response = some (.ok changed) ∧
        (changed = true ↔ i = .cls ∨ ∃ x y n, i = .drw x y n))) ∧
  ∀ (i : Instr) (s : State) (r : Option TickResponse), exec i { s with response := r } = exec i s

/-- R126, 60_exceptions.md R303: a fault names the instruction's address and word; PC is a + 2 after a fault in execute and
a after a fault in fetch; all else is as before, except the latch. -/
def Obligations.FaultsArePrecise : Prop :=
  ∀ (s t : State) (r : FaultRecord), step s = .next t → t.response = some (.fault r) →
    r.addr = s.pc ∧
    ((s.pc.toNat + 1 ≤ 0xFFF ∧ r.word = some s.wordAtPc ∧ (∃ i, decode s.wordAtPc = .instr i) ∧
        t = { s with pc := s.pc + 2, response := some (.fault r),
                     fault := (match s.fault with | none => some r | some f => some f) }) ∨
      (0xFFF < s.pc.toNat + 1 ∧ r.word = none ∧
        t = { s with response := some (.fault r),
                     fault := (match s.fault with | none => some r | some f => some f) }))

/-- R301: which instructions raise each fault kind, on what cause, with which `bad`; the fetch raises OutOfBounds; an
unknown word and a too large program are no faults; and each cause does raise its fault. -/
def Obligations.FaultKindsHaveTheirCauses : Prop :=
  (∀ (i : Instr) (s t : State) (r : FaultRecord), s.stack.length ≤ 16 → exec i s = .next t →
    t.response = some (.fault r) →
    match r.kind with
    | .stackOverflow => (∃ nnn, i = .call nnn) ∧ s.stack.length = 16 ∧ r.bad = none
    | .stackUnderflow => i = .ret ∧ s.stack = [] ∧ r.bad = none
    | .outOfBounds =>
      ∃ n : Nat, 0 < n ∧ 0xFFF < s.i.toNat + n - 1 ∧ r.bad = some (max s.i.toNat 0x1000) ∧
        ((∃ x y k, i = .drw x y k ∧ n = k.toNat) ∨ (∃ x, i = .ldBVx x ∧ n = 3) ∨
          ∃ x, (i = .storeRegs x ∨ i = .loadRegs x) ∧ n = x.toNat + 1)
    | .keyIndexOutOfRange =>
      ∃ x, (i = .skp x ∨ i = .sknp x) ∧ 0xF < (s.readV x).toNat ∧ s.cfg.keyIndexPolicy = .fault ∧
        r.bad = some (s.readV x).toNat
    | .readOnly =>
      ∃ n p : Nat, ((∃ x, i = .ldBVx x ∧ n = 3) ∨ ∃ x, i = .storeRegs x ∧ n = x.toNat + 1) ∧
        s.cfg.fontWritePolicy = .fault ∧ r.bad = some p ∧
        (s.i.toNat ≤ p ∧ p < s.i.toNat + n ∧ 0x50 ≤ p ∧ p ≤ 0x9F) ∧
        ∀ q, s.i.toNat ≤ q → 0x50 ≤ q → q ≤ 0x9F → p ≤ q) ∧
  (∀ (s t : State) (r : FaultRecord), 0xFFF < s.pc.toNat + 1 → step s = .next t → t.response = some (.fault r) →
    r.kind = .outOfBounds ∧ r.bad = some (max s.pc.toNat 0x1000)) ∧
  (∀ s t : State, s.pc.toNat + 1 ≤ 0xFFF → decode s.wordAtPc = .unknown s.wordAtPc → step s = .next t →
    t.response = some (.unknown s.wordAtPc) ∧ t.fault = s.fault) ∧
  (∀ (c : Colours) (s : State) (bytes : List Byte), 3584 < bytes.length →
    perform c (.load bytes) s = .next (.programTooLarge, s)) ∧
  ∀ s : State,
    let faults := fun (i : Instr) (kind : FaultKind) (bad : Option Nat) =>
      ∃ t r, exec i s = .next t ∧ t.response = some (.fault r) ∧ r.kind = kind ∧ r.bad = bad
    (s.stack.length = 16 → ∀ nnn, faults (.call nnn) .stackOverflow none) ∧
    (s.stack = [] → faults .ret .stackUnderflow none) ∧
    (∀ x y k : Nibble, k ≠ 0 → 0xFFF < s.i.toNat + k.toNat - 1 →
      faults (.drw x y k) .outOfBounds (some (max s.i.toNat 0x1000))) ∧
    (∀ x : Nibble, 0xFFF < s.i.toNat + 2 → faults (.ldBVx x) .outOfBounds (some (max s.i.toNat 0x1000))) ∧
    (∀ x : Nibble, 0xFFF < s.i.toNat + x.toNat →
      faults (.storeRegs x) .outOfBounds (some (max s.i.toNat 0x1000)) ∧
      faults (.loadRegs x) .outOfBounds (some (max s.i.toNat 0x1000))) ∧
    (∀ x : Nibble, 0xF < (s.readV x).toNat → s.cfg.keyIndexPolicy = .fault →
      faults (.skp x) .keyIndexOutOfRange (some (s.readV x).toNat) ∧
      faults (.sknp x) .keyIndexOutOfRange (some (s.readV x).toNat)) ∧
    (s.cfg.fontWritePolicy = .fault → s.i.toNat ≤ 0x9F →
      (∀ x : Nibble, 0x50 ≤ s.i.toNat + 2 → faults (.ldBVx x) .readOnly (some (max s.i.toNat 0x50))) ∧
      ∀ x : Nibble, 0x50 ≤ s.i.toNat + x.toNat → faults (.storeRegs x) .readOnly (some (max s.i.toNat 0x50)))

/-- 10_state.md R33: a TICK's first fault sets the latch, no host operation but RESET changes a set latch, RESET clears it,
and READ_FAULT reads it. -/
def Obligations.LatchKeepsTheFirstFault : Prop :=
  (∀ s t : State, step s = .next t → s.fault = none →
    t.fault = (match t.response with | some (.fault r) => some r | _ => none)) ∧
  (∀ (c : Colours) (op : HostOp) (s t : State) (p : HostResponse) (f : FaultRecord),
    perform c op s = .next (p, t) → op ≠ .reset → s.fault = some f → t.fault = some f) ∧
  (∀ (c : Colours) (s : State), ∃ t, perform c .reset s = .next (.none, t) ∧ t.fault = none) ∧
  ∀ (c : Colours) (s : State), perform c .readFault s = .next (.faultLatch s.fault, s)

/-- R129: a TICK behaves the same whatever the latch holds, and goes on with a latch that holds a fault. -/
def Obligations.LatchDoesNotSteerExecution : Prop :=
  ∀ (s : State) (f : Option FaultRecord), ∃ t u,
    step s = .next t ∧ step { s with fault := f } = .next u ∧ { u with fault := t.fault } = t

/-! ### Invariants -/

/-- 00_scope.md R7, 10_state.md R28, R32, R33, 20_memory.md R60: every step keeps the invariant, from every state. -/
def Obligations.StepKeepsTheInvariant : Prop :=
  ∀ s t : State, s.Inv → step s = .next t → t.Inv

/-- Every host operation keeps the invariant, whatever its arguments. -/
def Obligations.HostOperationsKeepTheInvariant : Prop :=
  ∀ (c : Colours) (op : HostOp) (s t : State) (p : HostResponse),
    s.Inv → perform c op s = .next (p, t) → t.Inv

/-- The state after RESET meets the invariant, and its font is intact, for every well-formed configuration; so does
`State.reset`. -/
def Obligations.ResetMeetsTheInvariant : Prop :=
  (∀ (cfg : Config) (n : Nat), cfg.wellFormed = true →
    (State.afterReset cfg n).Inv ∧ (State.afterReset cfg n).FontIntact) ∧
  State.reset.Inv ∧ State.reset.FontIntact

/-- 20_memory.md R64, 43_display.md R211: under policies Fault and Ignore no step overwrites a font byte. -/
def Obligations.NoInstructionOverwritesTheFont : Prop :=
  ∀ s t : State, s.cfg.fontWritePolicy ≠ .allow → s.FontIntact → step s = .next t → t.FontIntact

/-- 10_state.md R40, 70_reset_and_hazards.md R350: what RESET leaves in every piece of state, from every state. -/
def Obligations.ResetLeavesTheListedValues : Prop :=
  ∀ (c : Colours) (s : State), ∃ t, perform c .reset s = .next (.none, t) ∧
    (∀ p, p < 4096 →
      t.readMem p = if 0x050 ≤ p ∧ p < 0x0A0 then s.cfg.font.getD (p - 0x050) 0 else 0x00) ∧
    (∀ x, t.readV x = 0x00) ∧ t.i = 0x0000 ∧ t.pc = 0x0200 ∧ t.stack = [] ∧ t.dt = 0x00 ∧ t.st = 0x00 ∧
    (∀ k, t.keyPressed k = false) ∧ Display.shaped s.cfg t.disp ∧
    (∀ r c, r < s.cfg.height → c < s.cfg.width → Display.pixel t.disp r c = false) ∧ t.fault = none ∧ t.cfg = s.cfg

/-- R354: with no program loaded, each of 1792 TICKs from reset responds `Unknown(0x0000)` and moves PC by 2, up to 0x1000,
and every TICK after that faults there. -/
def Obligations.UnloadedMachineRunsToTheEndOfMemory : Prop :=
  (∀ k, k ≤ 1792 → Sys2Proof.core.run k State.reset =
    .next { State.reset with pc := BitVec.ofNat 16 (0x200 + 2 * k),
                             response := if k = 0 then none else some (.unknown 0x0000) }) ∧
  ∀ k, 1792 < k → ∃ t : State, Sys2Proof.core.run k State.reset = .next t ∧ t.pc = 0x1000 ∧
    t.response = some (.fault { kind := .outOfBounds, addr := 0x1000, word := none, bad := some 0x1000 })

/-! ### Rules of the whole machine -/

/-- R22, R24: an instruction changes no general register but its destinations, and VF where it writes the flag. -/
def Obligations.OnlyDestinationsAndFlagChange : Prop :=
  ∀ (i : Instr) (s t : State) (r : Nibble), exec i s = .next t → r ∉ destinations i →
    ¬(r = VF ∧ writesFlag s.cfg i = true) → t.readV r = s.readV r

/-- R25, R28 to R32, 20_memory.md R62, 60_exceptions.md R322, R326: which instructions may change each other piece of
state. The last clause is no rule of the spec: the count of draws is the model's own (DESIGN CHOICE, log entry 5). -/
def Obligations.OnlyTheNamedInstructionsChangeEachPart : Prop :=
  ∀ (i : Instr) (s t : State), exec i s = .next t →
    (t.stack ≠ s.stack → i = .ret ∨ ∃ nnn, i = .call nnn) ∧
    (t.dt ≠ s.dt → ∃ x, i = .ldDtVx x) ∧
    (t.st ≠ s.st → ∃ x, i = .ldStVx x) ∧
    (t.disp ≠ s.disp → i = .cls ∨ ∃ x y n, i = .drw x y n) ∧
    (t.mem ≠ s.mem → ∃ x, i = .ldBVx x ∨ i = .storeRegs x) ∧
    (t.i ≠ s.i → (∃ nnn, i = .ldI nnn) ∨ (∃ x, i = .addIVx x ∨ i = .ldFVx x) ∨
      (s.cfg.quirkLdstIncI = true ∧ ∃ x, i = .storeRegs x ∨ i = .loadRegs x)) ∧
    t.key = s.key ∧ t.cfg = s.cfg ∧ (t.draws ≠ s.draws → ∃ x nn, i = .rnd x nn)

/-- R27: PC after a TICK, row by row of its table, with `a` the PC before. -/
def Obligations.PcAfterEachTick : Prop :=
  (∀ s : State, 0xFFF < s.pc.toNat + 1 → ∃ t, step s = .next t ∧ t.pc = s.pc) ∧
  (∀ s : State, s.pc.toNat + 1 ≤ 0xFFF → decode s.wordAtPc = .unknown s.wordAtPc →
    ∃ t, step s = .next t ∧ t.pc = s.pc + 2) ∧
  ∀ (s : State) (i : Instr), s.pc.toNat + 1 ≤ 0xFFF → decode s.wordAtPc = .instr i →
    ∃ t, step s = .next t ∧
      (((∃ r, t.response = some (.fault r)) ∧ t.pc = s.pc + 2) ∨
        ((∃ ch, t.response = some (.ok ch)) ∧
          t.pc =
            match i with
            | .jp nnn => nnn.setWidth 16
            | .call nnn => nnn.setWidth 16
            | .ret => s.stack.getLastD 0
            | .jpV0 nnn => nnn.setWidth 16 + (s.readV 0).setWidth 16
            | .seImm x nn => if s.readV x = nn then s.pc + 4 else s.pc + 2
            | .sneImm x nn => if s.readV x ≠ nn then s.pc + 4 else s.pc + 2
            | .seReg x y => if s.readV x = s.readV y then s.pc + 4 else s.pc + 2
            | .sneReg x y => if s.readV x ≠ s.readV y then s.pc + 4 else s.pc + 2
            | .skp x => if s.keyPressed ((s.readV x).setWidth 4) = true then s.pc + 4 else s.pc + 2
            | .sknp x => if s.keyPressed ((s.readV x).setWidth 4) = false then s.pc + 4 else s.pc + 2
            | .ldVxK _ => if ∀ k, s.keyPressed k = false then s.pc else s.pc + 2
            | _ => s.pc + 2))

/-! ### Control flow (41_flow.md) -/

/-- R142, R143: RET pops the top return address into PC; with an empty stack it raises StackUnderflow. -/
def Obligations.ReturnPopsTheTopAddress : Prop :=
  decode 0x00EE = .instr .ret ∧
  (∀ (s : State) (l : List Word) (w : Word), s.stack = l ++ [w] →
    ∃ t, exec .ret s = .next t ∧ t.response = some (.ok false) ∧ t.pc = w ∧ t.stack = l ∧
      OnlyTouches { pc := true, stack := true } s t) ∧
  ∀ s : State, s.stack = [] → ∃ t, exec .ret s = .next t ∧ FaultRaised 0x00EE .stackUnderflow none s t

/-- R144: JP sets PC to NNN. -/
def Obligations.JumpSetsPc : Prop :=
  ∀ (nnn : Addr12) (s : State),
    decode (0x1000#16 ||| nnn.setWidth 16) = .instr (.jp nnn) ∧
    ∃ t, exec (.jp nnn) s = .next t ∧ t.response = some (.ok false) ∧ t.pc = nnn.setWidth 16 ∧
      OnlyTouches { pc := true } s t

/-- R141, R145: CALL pushes the post-fetch PC on the top of the stack and jumps; at 16 entries it raises StackOverflow,
pushes nothing and does not jump. -/
def Obligations.CallPushesThePostFetchPc : Prop :=
  ∀ (nnn : Addr12) (s : State),
    decode (0x2000#16 ||| nnn.setWidth 16) = .instr (.call nnn) ∧
    (s.stack.length < 16 → ∃ t, exec (.call nnn) s = .next t ∧ t.response = some (.ok false) ∧
      t.stack = s.stack ++ [s.pc] ∧ t.pc = nnn.setWidth 16 ∧ OnlyTouches { pc := true, stack := true } s t) ∧
    (s.stack.length = 16 → ∃ t, exec (.call nnn) s = .next t ∧
      FaultRaised (0x2000#16 ||| nnn.setWidth 16) .stackOverflow none s t)

/-- R146: JP V0 sets PC to NNN + V0 mod 2^16, never masked to 12 bits. -/
def Obligations.JumpWithOffsetAddsV0 : Prop :=
  ∀ (nnn : Addr12) (s : State),
    decode (0xB000#16 ||| nnn.setWidth 16) = .instr (.jpV0 nnn) ∧
    ∃ t, exec (.jpV0 nnn) s = .next t ∧ t.response = some (.ok false) ∧
      t.pc.toNat = (nnn.toNat + (s.readV 0).toNat) % 65536 ∧ OnlyTouches { pc := true } s t

/-- R147, R148, R149, R150: the four compare-and-skip instructions add 2 to PC when their condition holds. -/
def Obligations.CompareSkipsMovePcByTwo : Prop :=
  ∀ (x y : Nibble) (nn : Byte) (s : State),
    (decode (0x3000#16 ||| x.setWidth 16 <<< 8 ||| nn.setWidth 16) = .instr (.seImm x nn) ∧
      ∃ t, exec (.seImm x nn) s = .next t ∧ t.response = some (.ok false) ∧
        t.pc = (if s.readV x = nn then s.pc + 2 else s.pc) ∧ OnlyTouches { pc := true } s t) ∧
    (decode (0x4000#16 ||| x.setWidth 16 <<< 8 ||| nn.setWidth 16) = .instr (.sneImm x nn) ∧
      ∃ t, exec (.sneImm x nn) s = .next t ∧ t.response = some (.ok false) ∧
        t.pc = (if s.readV x ≠ nn then s.pc + 2 else s.pc) ∧ OnlyTouches { pc := true } s t) ∧
    (decode (0x5000#16 ||| x.setWidth 16 <<< 8 ||| y.setWidth 16 <<< 4) = .instr (.seReg x y) ∧
      (∀ n : Nibble, n ≠ 0 → decode (0x5000#16 ||| x.setWidth 16 <<< 8 ||| y.setWidth 16 <<< 4 ||| n.setWidth 16) =
        .unknown (0x5000#16 ||| x.setWidth 16 <<< 8 ||| y.setWidth 16 <<< 4 ||| n.setWidth 16)) ∧
      ∃ t, exec (.seReg x y) s = .next t ∧ t.response = some (.ok false) ∧
        t.pc = (if s.readV x = s.readV y then s.pc + 2 else s.pc) ∧ OnlyTouches { pc := true } s t) ∧
    (decode (0x9000#16 ||| x.setWidth 16 <<< 8 ||| y.setWidth 16 <<< 4) = .instr (.sneReg x y) ∧
      (∀ n : Nibble, n ≠ 0 → decode (0x9000#16 ||| x.setWidth 16 <<< 8 ||| y.setWidth 16 <<< 4 ||| n.setWidth 16) =
        .unknown (0x9000#16 ||| x.setWidth 16 <<< 8 ||| y.setWidth 16 <<< 4 ||| n.setWidth 16)) ∧
      ∃ t, exec (.sneReg x y) s = .next t ∧ t.response = some (.ok false) ∧
        t.pc = (if s.readV x ≠ s.readV y then s.pc + 2 else s.pc) ∧ OnlyTouches { pc := true } s t)

/-- R145's round trip: a RET fetched right after a CALL brings back the PC after the CALL's fetch and the stack before. -/
def Obligations.ReturnUndoesCall : Prop :=
  ∀ (nnn : Addr12) (s : State), s.stack.length < 16 →
    ∃ t u, exec (.call nnn) s = .next t ∧ exec .ret { t with pc := t.pc + 2 } = .next u ∧
      u = { s with response := some (.ok false) }

/-! ### Registers and ALU (42_alu.md) -/

/-- R171, R173: load immediate and copy. -/
def Obligations.LoadsWriteTheirDestination : Prop :=
  ∀ (x y : Nibble) (nn : Byte) (s : State),
    (decode (0x6000#16 ||| x.setWidth 16 <<< 8 ||| nn.setWidth 16) = .instr (.ldImm x nn) ∧
      ∃ t, exec (.ldImm x nn) s = .next t ∧ t.response = some (.ok false) ∧ t.readV x = nn ∧
        OnlyTouches { regs := [x] } s t) ∧
    (decode (0x8000#16 ||| x.setWidth 16 <<< 8 ||| y.setWidth 16 <<< 4) = .instr (.ldReg x y) ∧
      ∃ t, exec (.ldReg x y) s = .next t ∧ t.response = some (.ok false) ∧ t.readV x = s.readV y ∧
        OnlyTouches { regs := [x] } s t)

/-- R172: add immediate modulo 256, with no carry recorded. -/
def Obligations.AddImmediateRecordsNoCarry : Prop :=
  ∀ (x : Nibble) (nn : Byte) (s : State),
    decode (0x7000#16 ||| x.setWidth 16 <<< 8 ||| nn.setWidth 16) = .instr (.addImm x nn) ∧
    ∃ t, exec (.addImm x nn) s = .next t ∧ t.response = some (.ok false) ∧
      (t.readV x).toNat = ((s.readV x).toNat + nn.toNat) % 256 ∧ OnlyTouches { regs := [x] } s t

/-- R174, R175, R176: OR, AND and XOR write V[X] alone; VF stays unless it is the destination. -/
def Obligations.LogicWritesOnlyItsDestination : Prop :=
  ∀ (x y : Nibble) (s : State),
    (decode (0x8001#16 ||| x.setWidth 16 <<< 8 ||| y.setWidth 16 <<< 4) = .instr (.orReg x y) ∧
      ∃ t, exec (.orReg x y) s = .next t ∧ t.response = some (.ok false) ∧ t.readV x = s.readV x ||| s.readV y ∧
        OnlyTouches { regs := [x] } s t) ∧
    (decode (0x8002#16 ||| x.setWidth 16 <<< 8 ||| y.setWidth 16 <<< 4) = .instr (.andReg x y) ∧
      ∃ t, exec (.andReg x y) s = .next t ∧ t.response = some (.ok false) ∧ t.readV x = s.readV x &&& s.readV y ∧
        OnlyTouches { regs := [x] } s t) ∧
    (decode (0x8003#16 ||| x.setWidth 16 <<< 8 ||| y.setWidth 16 <<< 4) = .instr (.xorReg x y) ∧
      ∃ t, exec (.xorReg x y) s = .next t ∧ t.response = some (.ok false) ∧ t.readV x = s.readV x ^^^ s.readV y ∧
        OnlyTouches { regs := [x] } s t)

/-- R177: the sum modulo 256, then VF = 1 exactly when the true sum exceeds 255; with X = F only the carry is left. -/
def Obligations.AddSetsTheCarry : Prop :=
  ∀ (x y : Nibble) (s : State),
    decode (0x8004#16 ||| x.setWidth 16 <<< 8 ||| y.setWidth 16 <<< 4) = .instr (.addReg x y) ∧
    ∃ t, exec (.addReg x y) s = .next t ∧ t.response = some (.ok false) ∧
      (x ≠ 0xF → (t.readV x).toNat = ((s.readV x).toNat + (s.readV y).toNat) % 256) ∧
      t.readV 0xF = (if 255 < (s.readV x).toNat + (s.readV y).toNat then 1 else 0) ∧
      OnlyTouches { regs := [x, 0xF] } s t

/-- R178, R180: both differences modulo 256, then VF = 1 exactly when no borrow occurs. -/
def Obligations.SubtractSetsNotBorrow : Prop :=
  ∀ (x y : Nibble) (s : State),
    (decode (0x8005#16 ||| x.setWidth 16 <<< 8 ||| y.setWidth 16 <<< 4) = .instr (.subReg x y) ∧
      ∃ t, exec (.subReg x y) s = .next t ∧ t.response = some (.ok false) ∧
        (x ≠ 0xF → (t.readV x).toNat = ((s.readV x).toNat + 256 - (s.readV y).toNat) % 256) ∧
        t.readV 0xF = (if (s.readV x).toNat ≥ (s.readV y).toNat then 1 else 0) ∧
        OnlyTouches { regs := [x, 0xF] } s t) ∧
    (decode (0x8007#16 ||| x.setWidth 16 <<< 8 ||| y.setWidth 16 <<< 4) = .instr (.subnReg x y) ∧
      ∃ t, exec (.subnReg x y) s = .next t ∧ t.response = some (.ok false) ∧
        (x ≠ 0xF → (t.readV x).toNat = ((s.readV y).toNat + 256 - (s.readV x).toNat) % 256) ∧
        t.readV 0xF = (if (s.readV y).toNat ≥ (s.readV x).toNat then 1 else 0) ∧
        OnlyTouches { regs := [x, 0xF] } s t)

/-- R179, R181: shifts by one of the source the quirk chooses; VF ends holding the bit shifted out. -/
def Obligations.ShiftsMoveOneBitIntoVF : Prop :=
  ∀ (x y : Nibble) (s : State),
    let src := if s.cfg.quirkShiftVy then s.readV y else s.readV x
    (decode (0x8006#16 ||| x.setWidth 16 <<< 8 ||| y.setWidth 16 <<< 4) = .instr (.shr x y) ∧
      ∃ t, exec (.shr x y) s = .next t ∧ t.response = some (.ok false) ∧
        (x ≠ 0xF → (t.readV x).toNat = src.toNat / 2) ∧ (t.readV 0xF).toNat = src.toNat % 2 ∧
        OnlyTouches { regs := [x, 0xF] } s t) ∧
    (decode (0x800E#16 ||| x.setWidth 16 <<< 8 ||| y.setWidth 16 <<< 4) = .instr (.shl x y) ∧
      ∃ t, exec (.shl x y) s = .next t ∧ t.response = some (.ok false) ∧
        (x ≠ 0xF → (t.readV x).toNat = src.toNat * 2 % 256) ∧ (t.readV 0xF).toNat = src.toNat / 128 ∧
        OnlyTouches { regs := [x, 0xF] } s t)

/-- R128, R190: RND writes the TICK's random byte masked by NN, whatever the byte is; the next draw is another one. The
byte is the free value of log entry 4. -/
def Obligations.RandomByteIsMasked : Prop :=
  ∀ (x : Nibble) (nn : Byte) (s : State),
    decode (0xC000#16 ||| x.setWidth 16 <<< 8 ||| nn.setWidth 16) = .instr (.rnd x nn) ∧
    ∃ t, exec (.rnd x nn) s = .next t ∧ t.response = some (.ok false) ∧
      t.readV x = Config.freeByte s.draws &&& nn ∧ t.draws = s.draws + 1 ∧
      (∀ k, nn.getLsbD k = false → (t.readV x).getLsbD k = false) ∧
      OnlyTouches { regs := [x], draws := true } s t

/-! ### Display (43_display.md) -/

/-- R200: CLS turns every pixel off, and the framebuffer then reads BG for every cell. -/
def Obligations.ClearTurnsEveryPixelOff : Prop :=
  decode 0x00E0 = .instr .cls ∧
  ∀ s : State, ∃ t, exec .cls s = .next t ∧ t.response = some (.ok true) ∧ Display.shaped s.cfg t.disp ∧
    (∀ r c, r < s.cfg.height → c < s.cfg.width → Display.pixel t.disp r c = false) ∧
    (∀ c : Colours, t.readFramebuffer c =
      (List.replicate (s.cfg.height * s.cfg.width) [c.bg.r, c.bg.g, c.bg.b, c.bg.a]).flatten) ∧
    OnlyTouches { disp := true } s t

/-- R201 to R205: DRW XORs each pixel of the display with the sprite's bit for it, the start wrapped and the body clipped;
VF says whether a pixel went from on to off; it faults, changing nothing, when its N bytes run past 0xFFF. -/
def Obligations.DrawXorsTheClippedSprite : Prop :=
  ∀ (x y n : Nibble) (s : State), Display.shaped s.cfg s.disp →
    decode (0xD000#16 ||| x.setWidth 16 <<< 8 ||| y.setWidth 16 <<< 4 ||| n.setWidth 16) = .instr (.drw x y n) ∧
    (n = 0 ∨ s.i.toNat + n.toNat - 1 ≤ 0xFFF →
      let x0 := (s.readV x).toNat % s.cfg.width
      let y0 := (s.readV y).toNat % s.cfg.height
      (s.cfg.wellFormed = true → x0 < s.cfg.width ∧ y0 < s.cfg.height) ∧
      ∃ t, exec (.drw x y n) s = .next t ∧ t.response = some (.ok true) ∧ Display.shaped s.cfg t.disp ∧
        (∀ r c, r < s.cfg.height → c < s.cfg.width →
          Display.pixel t.disp r c = (Display.pixel s.disp r c ^^ s.spriteBit x0 y0 n.toNat r c)) ∧
        (t.readV 0xF = 0 ∨ t.readV 0xF = 1) ∧
        (t.readV 0xF = 1 ↔ ∃ r c, r < s.cfg.height ∧ c < s.cfg.width ∧
          Display.pixel s.disp r c = true ∧ Display.pixel t.disp r c = false) ∧
        OnlyTouches { regs := [0xF], disp := true } s t) ∧
    (n ≠ 0 ∧ 0xFFF < s.i.toNat + n.toNat - 1 → ∃ t, exec (.drw x y n) s = .next t ∧
      FaultRaised (0xD000#16 ||| x.setWidth 16 <<< 8 ||| y.setWidth 16 <<< 4 ||| n.setWidth 16) .outOfBounds
        (some (max s.i.toNat 0x1000)) s t)

/-- From R203 and R204: drawing the same sprite twice at the same place brings every pixel back, and the second draw sets VF
exactly when an opaque bit falls on a pixel that was off before the first draw. This is R206 with its second sentence
mended (log entry 15). -/
def Obligations.DrawingTwiceRestoresTheDisplay : Prop :=
  ∀ (x y n : Nibble) (s : State), Display.shaped s.cfg s.disp → x ≠ 0xF → y ≠ 0xF →
    (n = 0 ∨ s.i.toNat + n.toNat - 1 ≤ 0xFFF) →
    ∃ t u, exec (.drw x y n) s = .next t ∧ exec (.drw x y n) { t with pc := t.pc + 2 } = .next u ∧
      u.disp = s.disp ∧
      (u.readV 0xF = 1 ↔ ∃ r c, r < s.cfg.height ∧ c < s.cfg.width ∧ Display.pixel s.disp r c = false ∧
        s.spriteBit ((s.readV x).toNat % s.cfg.width) ((s.readV y).toNat % s.cfg.height) n.toNat r c = true)

/-- R206's second sentence as it stands, EXPECTED TO FAIL: where every opaque bit falls on a pixel that was on, the second
draw turns pixels from off to on only, and R203 leaves VF = 0 (log entry 15). -/
def Obligations.SecondDrawOfAnOpaqueSpriteAlwaysCollides : Prop :=
  ∀ (x y n : Nibble) (s t u : State), s.Inv → x ≠ 0xF → y ≠ 0xF → s.i.toNat + n.toNat ≤ 0x1000 →
    (∃ r c, r < s.cfg.height ∧ c < s.cfg.width ∧
      s.spriteBit ((s.readV x).toNat % s.cfg.width) ((s.readV y).toNat % s.cfg.height) n.toNat r c = true) →
    exec (.drw x y n) s = .next t → exec (.drw x y n) { t with pc := t.pc + 2 } = .next u → u.readV 0xF = 1

/-- R210: I becomes the address of the glyph for the low nibble of V[X]; no memory is accessed. -/
def Obligations.GlyphAddressGoesToIndex : Prop :=
  ∀ (x : Nibble) (s : State),
    decode (0xF029#16 ||| x.setWidth 16 <<< 8) = .instr (.ldFVx x) ∧
    ∃ t, exec (.ldFVx x) s = .next t ∧ t.response = some (.ok false) ∧
      t.i.toNat = 0x050 + 5 * ((s.readV x).toNat % 16) ∧ OnlyTouches { i := true } s t

/-- R211, R212: after reset the default font stands at 0x050, glyph d at 0x050 + 5 d. The bytes are the spec's general
knowledge (R212, log entry 7), not the source's. -/
def Obligations.ResetMemoryHoldsTheDefaultFont : Prop :=
  (List.range 80).map (fun k => State.reset.readMem (0x050 + k)) =
    [0xF0, 0x90, 0x90, 0x90, 0xF0] ++ [0x20, 0x60, 0x20, 0x20, 0x70] ++ [0xF0, 0x10, 0xF0, 0x80, 0xF0] ++
    [0xF0, 0x10, 0xF0, 0x10, 0xF0] ++ [0x90, 0x90, 0xF0, 0x10, 0x10] ++ [0xF0, 0x80, 0xF0, 0x10, 0xF0] ++
    [0xF0, 0x80, 0xF0, 0x90, 0xF0] ++ [0xF0, 0x10, 0x20, 0x40, 0x40] ++ [0xF0, 0x90, 0xF0, 0x90, 0xF0] ++
    [0xF0, 0x90, 0xF0, 0x10, 0xF0] ++ [0xF0, 0x90, 0xF0, 0x90, 0x90] ++ [0xE0, 0x90, 0xE0, 0x90, 0xE0] ++
    [0xF0, 0x80, 0x80, 0x80, 0xF0] ++ [0xE0, 0x90, 0x90, 0x90, 0xE0] ++ [0xF0, 0x80, 0xF0, 0x80, 0xF0] ++
    [0xF0, 0x80, 0xF0, 0x80, 0x80]

/-! ### Index register and memory transfers (44_index_memory.md) -/

/-- R230: I becomes NNN. -/
def Obligations.LoadIndexSetsI : Prop :=
  ∀ (nnn : Addr12) (s : State),
    decode (0xA000#16 ||| nnn.setWidth 16) = .instr (.ldI nnn) ∧
    ∃ t, exec (.ldI nnn) s = .next t ∧ t.response = some (.ok false) ∧ t.i = nnn.setWidth 16 ∧
      OnlyTouches { i := true } s t

/-- R231: I + V[X] modulo 2^16 goes to I; VF follows `FX1E_VF` on the stored sum. -/
def Obligations.AddToIndexFollowsItsFlagPolicy : Prop :=
  ∀ (x : Nibble) (s : State),
    decode (0xF01E#16 ||| x.setWidth 16 <<< 8) = .instr (.addIVx x) ∧
    ∃ t, exec (.addIVx x) s = .next t ∧ t.response = some (.ok false) ∧
      t.i.toNat = (s.i.toNat + (s.readV x).toNat) % 65536 ∧
      t.readV 0xF =
        (match s.cfg.fx1eVf with
          | .noFlag => s.readV 0xF
          | .setOnly => if 0x0FFF < t.i.toNat then 1 else s.readV 0xF
          | .setOrClear => if 0x0FFF < t.i.toNat then 1 else 0) ∧
      OnlyTouches { regs := [0xF], i := true } s t

/-- R232, R233, 20_memory.md R64: FX33 stores the three decimal digits at I, I + 1, I + 2, by the font policy; it faults
out of bounds, or read-only under policy Fault on the lowest font address covered, and then stores nothing. -/
def Obligations.BcdStoresThreeDigits : Prop :=
  ∀ (x : Nibble) (s : State),
    let base := s.i.toNat
    let word := 0xF033#16 ||| x.setWidth 16 <<< 8
    let digit := fun k : Nat => if k = 0 then (s.readV x).toNat / 100 else
      if k = 1 then (s.readV x).toNat / 10 % 10 else (s.readV x).toNat % 10
    decode word = .instr (.ldBVx x) ∧
    (base + 2 ≤ 0xFFF → (s.cfg.fontWritePolicy = .fault → base + 2 < 0x050 ∨ 0x09F < base) →
      ∃ t, exec (.ldBVx x) s = .next t ∧ t.response = some (.ok false) ∧
        (∀ k, k < 3 → (0x050 ≤ base + k ∧ base + k ≤ 0x09F) → s.cfg.fontWritePolicy = .ignore →
          t.readMem (base + k) = s.readMem (base + k)) ∧
        (∀ k, k < 3 → ¬((0x050 ≤ base + k ∧ base + k ≤ 0x09F) ∧ s.cfg.fontWritePolicy = .ignore) →
          (t.readMem (base + k)).toNat = digit k) ∧
        OnlyTouches { mem := (base, 3) } s t) ∧
    (0xFFF < base + 2 → ∃ t, exec (.ldBVx x) s = .next t ∧
      FaultRaised word .outOfBounds (some (max base 0x1000)) s t) ∧
    (base + 2 ≤ 0xFFF → s.cfg.fontWritePolicy = .fault → 0x050 ≤ base + 2 → base ≤ 0x09F →
      ∃ t, exec (.ldBVx x) s = .next t ∧ FaultRaised word .readOnly (some (max base 0x050)) s t)

/-- R232, R234, R236, 20_memory.md R64: FX55 stores V0 to VX from I up, by the font policy; I moves by X + 1 only under the
quirk; it faults as FX33 does, and then stores nothing. -/
def Obligations.StoreRegistersWritesV0ToVX : Prop :=
  ∀ (x : Nibble) (s : State),
    let base := s.i.toNat
    let word := 0xF055#16 ||| x.setWidth 16 <<< 8
    decode word = .instr (.storeRegs x) ∧
    (base + x.toNat ≤ 0xFFF → (s.cfg.fontWritePolicy = .fault → base + x.toNat < 0x050 ∨ 0x09F < base) →
      ∃ t, exec (.storeRegs x) s = .next t ∧ t.response = some (.ok false) ∧
        (∀ k : Nibble, k.toNat ≤ x.toNat → (0x050 ≤ base + k.toNat ∧ base + k.toNat ≤ 0x09F) →
          s.cfg.fontWritePolicy = .ignore → t.readMem (base + k.toNat) = s.readMem (base + k.toNat)) ∧
        (∀ k : Nibble, k.toNat ≤ x.toNat →
          ¬((0x050 ≤ base + k.toNat ∧ base + k.toNat ≤ 0x09F) ∧ s.cfg.fontWritePolicy = .ignore) →
          t.readMem (base + k.toNat) = s.readV k) ∧
        t.i.toNat = (if s.cfg.quirkLdstIncI then (base + x.toNat + 1) % 65536 else base) ∧
        OnlyTouches { i := s.cfg.quirkLdstIncI, mem := (base, x.toNat + 1) } s t) ∧
    (0xFFF < base + x.toNat → ∃ t, exec (.storeRegs x) s = .next t ∧
      FaultRaised word .outOfBounds (some (max base 0x1000)) s t) ∧
    (base + x.toNat ≤ 0xFFF → s.cfg.fontWritePolicy = .fault → 0x050 ≤ base + x.toNat → base ≤ 0x09F →
      ∃ t, exec (.storeRegs x) s = .next t ∧ FaultRaised word .readOnly (some (max base 0x050)) s t)

/-- R232, R235, R236: FX65 loads V0 to VX from I up and no register above; I moves by X + 1 only under the quirk; out of
bounds it faults and loads nothing. -/
def Obligations.LoadRegistersReadsV0ToVX : Prop :=
  ∀ (x : Nibble) (s : State),
    let base := s.i.toNat
    let word := 0xF065#16 ||| x.setWidth 16 <<< 8
    decode word = .instr (.loadRegs x) ∧
    (base + x.toNat ≤ 0xFFF →
      ∃ t, exec (.loadRegs x) s = .next t ∧ t.response = some (.ok false) ∧
        (∀ k : Nibble, t.readV k = if k.toNat ≤ x.toNat then s.readMem (base + k.toNat) else s.readV k) ∧
        t.i.toNat = (if s.cfg.quirkLdstIncI then (base + x.toNat + 1) % 65536 else base) ∧
        OnlyTouches { regs := (List.range (x.toNat + 1)).map (BitVec.ofNat 4), i := s.cfg.quirkLdstIncI } s t) ∧
    (0xFFF < base + x.toNat → ∃ t, exec (.loadRegs x) s = .next t ∧
      FaultRaised word .outOfBounds (some (max base 0x1000)) s t)

/-- R236: under `QUIRK_LDST_INC_I`, FX55 and FX65 leave I + X + 1 modulo 2^16; without it I stays, and on a fault I stays
either way. -/
def Obligations.IndexMovesOnlyUnderItsQuirk : Prop :=
  ∀ (i : Instr) (x : Nibble) (s : State), i = .storeRegs x ∨ i = .loadRegs x →
    ∃ t, exec i s = .next t ∧
      ((∃ r, t.response = some (.fault r)) → t.i = s.i) ∧
      (t.response = some (.ok false) →
        t.i.toNat = if s.cfg.quirkLdstIncI = true then (s.i.toNat + x.toNat + 1) % 65536 else s.i.toNat) ∧
      ((∃ r, t.response = some (.fault r)) ∨ t.response = some (.ok false))

/-! ### Timers and keys (45_timer_key.md) -/

/-- R260, R261, R262: SKP and SKNP skip on the level of the key V[X] names, the low nibble of V[X] under policy Mask; above
0xF under policy Fault they raise KeyIndexOutOfRange. -/
def Obligations.KeySkipsFollowTheKeyLevel : Prop :=
  ∀ (x : Nibble) (s : State),
    decode (0xE09E#16 ||| x.setWidth 16 <<< 8) = .instr (.skp x) ∧
    decode (0xE0A1#16 ||| x.setWidth 16 <<< 8) = .instr (.sknp x) ∧
    (∀ k : Nibble, k.toNat = (s.readV x).toNat % 16 →
      ((s.readV x).toNat ≤ 0xF ∨ s.cfg.keyIndexPolicy = .mask) →
      (∃ t, exec (.skp x) s = .next t ∧ t.response = some (.ok false) ∧
        t.pc = (if s.keyPressed k = true then s.pc + 2 else s.pc) ∧ OnlyTouches { pc := true } s t) ∧
      ∃ t, exec (.sknp x) s = .next t ∧ t.response = some (.ok false) ∧
        t.pc = (if s.keyPressed k = false then s.pc + 2 else s.pc) ∧ OnlyTouches { pc := true } s t) ∧
    (0xF < (s.readV x).toNat → s.cfg.keyIndexPolicy = .fault →
      (∃ t, exec (.skp x) s = .next t ∧
        FaultRaised (0xE09E#16 ||| x.setWidth 16 <<< 8) .keyIndexOutOfRange (some (s.readV x).toNat) s t) ∧
      ∃ t, exec (.sknp x) s = .next t ∧
        FaultRaised (0xE0A1#16 ||| x.setWidth 16 <<< 8) .keyIndexOutOfRange (some (s.readV x).toNat) s t)

/-- R263, R264, R265: the timer moves. -/
def Obligations.TimerInstructionsMoveTheTimers : Prop :=
  ∀ (x : Nibble) (s : State),
    (decode (0xF007#16 ||| x.setWidth 16 <<< 8) = .instr (.ldVxDt x) ∧
      ∃ t, exec (.ldVxDt x) s = .next t ∧ t.response = some (.ok false) ∧ t.readV x = s.dt ∧
        OnlyTouches { regs := [x] } s t) ∧
    (decode (0xF015#16 ||| x.setWidth 16 <<< 8) = .instr (.ldDtVx x) ∧
      ∃ t, exec (.ldDtVx x) s = .next t ∧ t.response = some (.ok false) ∧ t.dt = s.readV x ∧
        OnlyTouches { dt := true } s t) ∧
    (decode (0xF018#16 ||| x.setWidth 16 <<< 8) = .instr (.ldStVx x) ∧
      ∃ t, exec (.ldStVx x) s = .next t ∧ t.response = some (.ok false) ∧ t.st = s.readV x ∧
        OnlyTouches { st := true } s t)

/-- R266: FX0A stores the lowest pressed key in V[X]; with no key pressed it only moves PC back by 2. -/
def Obligations.WaitForKeyTakesTheLowestKey : Prop :=
  ∀ (x : Nibble) (s : State),
    decode (0xF00A#16 ||| x.setWidth 16 <<< 8) = .instr (.ldVxK x) ∧
    (∀ k : Nibble, s.keyPressed k = true → (∀ j : Nibble, j.toNat < k.toNat → s.keyPressed j = false) →
      ∃ t, exec (.ldVxK x) s = .next t ∧ t.response = some (.ok false) ∧ (t.readV x).toNat = k.toNat ∧
        OnlyTouches { regs := [x] } s t) ∧
    ((∀ k, s.keyPressed k = false) →
      ∃ t, exec (.ldVxK x) s = .next t ∧ t.response = some (.ok false) ∧ t.pc = s.pc - 2 ∧
        OnlyTouches { pc := true } s t)

/-! ### Host operations -/

/-- 20_memory.md R70, R71, R72: LOAD copies the image to 0x200 and sets PC, changing nothing else; an image of more than
3584 bytes is rejected and changes nothing. -/
def Obligations.LoadCopiesTheImageAndSetsPc : Prop :=
  ∀ (c : Colours) (s : State) (b : List Byte),
    (b.length ≤ 4096 - 0x200 → ∃ t, perform c (.load b) s = .next (.loadOk, t) ∧ t.pc = 0x200 ∧
      (∀ k (h : k < b.length), t.readMem (0x200 + k) = b[k]) ∧
      (∀ a, (a < 0x200 ∨ 0x200 + b.length ≤ a) → t.readMem a = s.readMem a) ∧
      t = { s with mem := t.mem, pc := t.pc }) ∧
    (4096 - 0x200 < b.length → perform c (.load b) s = .next (.programTooLarge, s))

/-- 60_exceptions.md R320: TICK_TIMERS takes 1 from each timer, stopping at 0, and changes nothing else. -/
def Obligations.TimersCountDownToZero : Prop :=
  ∀ (c : Colours) (s : State), ∃ t, perform c .tickTimers s = .next (.none, t) ∧
    t.dt.toNat = (if s.dt.toNat > 0 then s.dt.toNat - 1 else 0) ∧
    t.st.toNat = (if s.st.toNat > 0 then s.st.toNat - 1 else 0) ∧
    t = { s with dt := t.dt, st := t.st }

/-- R325: SET_KEY writes one key and nothing else; written twice with one value it is written once, and the last write
wins. -/
def Obligations.SetKeyWritesOneKey : Prop :=
  ∀ (c : Colours) (s : State) (k : Nibble) (p q : Bool), ∃ t u,
    perform c (.setKey k p) s = .next (.none, t) ∧ t.keyPressed k = p ∧
    (∀ j, j ≠ k → t.keyPressed j = s.keyPressed j) ∧ t = { s with key := t.key } ∧
    perform c (.setKey k q) t = .next (.none, u) ∧ perform c (.setKey k q) s = .next (.none, u)

/-- R330: READ_FB gives W·H·4 bytes and changes nothing; the four at (r·W + c)·4 are FG or BG, in the order R, G, B, A. -/
def Obligations.FramebufferHoldsTheColours : Prop :=
  ∀ (k : Colours) (s : State), Display.shaped s.cfg s.disp →
    ∃ bytes, perform k .readFb s = .next (.framebuffer bytes, s) ∧
      bytes.length = s.cfg.width * s.cfg.height * 4 ∧
      ∀ r c, r < s.cfg.height → c < s.cfg.width →
        let p := if Display.pixel s.disp r c = true then k.fg else k.bg
        let at4 := (r * s.cfg.width + c) * 4
        bytes[at4]? = some p.r ∧ bytes[at4 + 1]? = some p.g ∧ bytes[at4 + 2]? = some p.b ∧ bytes[at4 + 3]? = some p.a

/-- R331: the read-outs give the display, ST and the latch, and change nothing. -/
def Obligations.ReadOutsChangeNothing : Prop :=
  ∀ (c : Colours) (s : State),
    perform c .readDisplay s = .next (.display s.disp, s) ∧ perform c .readSound s = .next (.sound s.st, s) ∧
    perform c .readFault s = .next (.faultLatch s.fault, s)
end

