-- ==== Sys2Proof/Laws/Decode.lean ====
section
/-! SUPPORT. The fields of an encoded word, and that every instruction term is well formed. -/

namespace Sys2Proof

/-- No ill-formed instruction can be written: the operand types have the widths of R92's fields. -/
theorem Laws.instr_wellFormed (i : Instr) : i.wellFormed = true := by
  have hn : ∀ x : Nibble, nibbleFits x = true := fun x => decide_eq_true x.isLt
  have hb : ∀ x : Byte, byteFits x = true := fun x => decide_eq_true x.isLt
  have ha : ∀ x : Addr12, addrFits x = true := fun x => decide_eq_true x.isLt
  cases i <;> simp only [Instr.wellFormed, hn, hb, ha, Bool.and_self]

section formatAFields
variable (f : Word) (nnn : Addr12)
theorem fieldF_formatA : fieldF (formatA f nnn) = fieldF f := by
  unfold fieldF formatA
  ext i hi
  interval_cases i <;> simp
theorem fieldNNN_formatA : fieldNNN (formatA f nnn) = fieldNNN f ||| nnn := by
  unfold fieldNNN formatA
  ext i hi
  interval_cases i <;> simp
end formatAFields

section formatXKFields
variable (f : Word) (x : Nibble) (nn : Byte)
theorem fieldF_formatXK : fieldF (formatXK f x nn) = fieldF f := by
  unfold fieldF formatXK
  ext i hi
  interval_cases i <;> simp
theorem fieldX_formatXK : fieldX (formatXK f x nn) = fieldX f ||| x := by
  unfold fieldX formatXK
  ext i hi
  interval_cases i <;> simp
theorem fieldNN_formatXK : fieldNN (formatXK f x nn) = fieldNN f ||| nn := by
  unfold fieldNN formatXK
  ext i hi
  interval_cases i <;> simp
end formatXKFields

section formatXYFields
variable (f : Word) (x y : Nibble)
theorem fieldF_formatXY : fieldF (formatXY f x y) = fieldF f := by
  unfold fieldF formatXY
  ext i hi
  interval_cases i <;> simp
theorem fieldX_formatXY : fieldX (formatXY f x y) = fieldX f ||| x := by
  unfold fieldX formatXY
  ext i hi
  interval_cases i <;> simp
theorem fieldY_formatXY : fieldY (formatXY f x y) = fieldY f ||| y := by
  unfold fieldY formatXY
  ext i hi
  interval_cases i <;> simp
theorem fieldN_formatXY : fieldN (formatXY f x y) = fieldN f := by
  unfold fieldN formatXY
  ext i hi
  interval_cases i <;> simp
end formatXYFields

section formatXYNFields
variable (f : Word) (x y n : Nibble)
theorem fieldF_formatXYN : fieldF (formatXYN f x y n) = fieldF f := by
  unfold fieldF formatXYN
  ext i hi
  interval_cases i <;> simp
theorem fieldX_formatXYN : fieldX (formatXYN f x y n) = fieldX f ||| x := by
  unfold fieldX formatXYN
  ext i hi
  interval_cases i <;> simp
theorem fieldY_formatXYN : fieldY (formatXYN f x y n) = fieldY f ||| y := by
  unfold fieldY formatXYN
  ext i hi
  interval_cases i <;> simp
theorem fieldN_formatXYN : fieldN (formatXYN f x y n) = fieldN f ||| n := by
  unfold fieldN formatXYN
  ext i hi
  interval_cases i <;> simp
end formatXYNFields

section formatXSFields
variable (f : Word) (x : Nibble)
theorem fieldF_formatXS : fieldF (formatXS f x) = fieldF f := by
  unfold fieldF formatXS
  ext i hi
  interval_cases i <;> simp
theorem fieldX_formatXS : fieldX (formatXS f x) = fieldX f ||| x := by
  unfold fieldX formatXS
  ext i hi
  interval_cases i <;> simp
theorem fieldNN_formatXS : fieldNN (formatXS f x) = fieldNN f := by
  unfold fieldNN formatXS
  ext i hi
  interval_cases i <;> simp
end formatXSFields

/-- A word put together from its two bytes is the word (R65). -/
theorem bigEndian_bytes (w : Word) : bigEndian (highByte w) (lowByte w) = w := by
  unfold bigEndian highByte lowByte
  ext i hi
  interval_cases i <;> simp

theorem highByte_bigEndian (hi lo : Byte) : highByte (bigEndian hi lo) = hi := by
  unfold bigEndian highByte
  ext i h
  interval_cases i <;> simp

theorem lowByte_bigEndian (hi lo : Byte) : lowByte (bigEndian hi lo) = lo := by
  unfold bigEndian lowByte
  ext i h
  interval_cases i <;> simp

end Sys2Proof
end

