-- ==== Sys2Proof/Laws/State.lean ====
section
/-! SUPPORT. One lemma per field and per named update of the state, and what the accessors see of each update. -/

namespace Sys2Proof.Machine

section writeVFields
variable (s : State) (x : Nibble) (b : Byte)
@[simp] theorem State.writeV_cfg : (s.writeV x b).cfg = s.cfg := rfl
@[simp] theorem State.writeV_mem : (s.writeV x b).mem = s.mem := rfl
@[simp] theorem State.writeV_v : (s.writeV x b).v = s.v.set x.toNat b x.isLt := rfl
@[simp] theorem State.writeV_i : (s.writeV x b).i = s.i := rfl
@[simp] theorem State.writeV_pc : (s.writeV x b).pc = s.pc := rfl
@[simp] theorem State.writeV_stack : (s.writeV x b).stack = s.stack := rfl
@[simp] theorem State.writeV_dt : (s.writeV x b).dt = s.dt := rfl
@[simp] theorem State.writeV_st : (s.writeV x b).st = s.st := rfl
@[simp] theorem State.writeV_key : (s.writeV x b).key = s.key := rfl
@[simp] theorem State.writeV_disp : (s.writeV x b).disp = s.disp := rfl
@[simp] theorem State.writeV_fault : (s.writeV x b).fault = s.fault := rfl
@[simp] theorem State.writeV_response : (s.writeV x b).response = s.response := rfl
@[simp] theorem State.writeV_draws : (s.writeV x b).draws = s.draws := rfl
@[simp] theorem State.writeV_keyPressed (j : Nibble) : (s.writeV x b).keyPressed j = s.keyPressed j := rfl
@[simp] theorem State.writeV_readMem (a : Nat) : (s.writeV x b).readMem a = s.readMem a := rfl
end writeVFields

section setIFields
variable (s : State) (w : Word)
@[simp] theorem State.setI_cfg : (s.setI w).cfg = s.cfg := rfl
@[simp] theorem State.setI_mem : (s.setI w).mem = s.mem := rfl
@[simp] theorem State.setI_v : (s.setI w).v = s.v := rfl
@[simp] theorem State.setI_i : (s.setI w).i = w := rfl
@[simp] theorem State.setI_pc : (s.setI w).pc = s.pc := rfl
@[simp] theorem State.setI_stack : (s.setI w).stack = s.stack := rfl
@[simp] theorem State.setI_dt : (s.setI w).dt = s.dt := rfl
@[simp] theorem State.setI_st : (s.setI w).st = s.st := rfl
@[simp] theorem State.setI_key : (s.setI w).key = s.key := rfl
@[simp] theorem State.setI_disp : (s.setI w).disp = s.disp := rfl
@[simp] theorem State.setI_fault : (s.setI w).fault = s.fault := rfl
@[simp] theorem State.setI_response : (s.setI w).response = s.response := rfl
@[simp] theorem State.setI_draws : (s.setI w).draws = s.draws := rfl
@[simp] theorem State.setI_readV (y : Nibble) : (s.setI w).readV y = s.readV y := rfl
@[simp] theorem State.setI_keyPressed (j : Nibble) : (s.setI w).keyPressed j = s.keyPressed j := rfl
@[simp] theorem State.setI_readMem (a : Nat) : (s.setI w).readMem a = s.readMem a := rfl
end setIFields

section setPcFields
variable (s : State) (w : Word)
@[simp] theorem State.setPc_cfg : (s.setPc w).cfg = s.cfg := rfl
@[simp] theorem State.setPc_mem : (s.setPc w).mem = s.mem := rfl
@[simp] theorem State.setPc_v : (s.setPc w).v = s.v := rfl
@[simp] theorem State.setPc_i : (s.setPc w).i = s.i := rfl
@[simp] theorem State.setPc_pc : (s.setPc w).pc = w := rfl
@[simp] theorem State.setPc_stack : (s.setPc w).stack = s.stack := rfl
@[simp] theorem State.setPc_dt : (s.setPc w).dt = s.dt := rfl
@[simp] theorem State.setPc_st : (s.setPc w).st = s.st := rfl
@[simp] theorem State.setPc_key : (s.setPc w).key = s.key := rfl
@[simp] theorem State.setPc_disp : (s.setPc w).disp = s.disp := rfl
@[simp] theorem State.setPc_fault : (s.setPc w).fault = s.fault := rfl
@[simp] theorem State.setPc_response : (s.setPc w).response = s.response := rfl
@[simp] theorem State.setPc_draws : (s.setPc w).draws = s.draws := rfl
@[simp] theorem State.setPc_readV (y : Nibble) : (s.setPc w).readV y = s.readV y := rfl
@[simp] theorem State.setPc_keyPressed (j : Nibble) : (s.setPc w).keyPressed j = s.keyPressed j := rfl
@[simp] theorem State.setPc_readMem (a : Nat) : (s.setPc w).readMem a = s.readMem a := rfl
end setPcFields

section setStackFields
variable (s : State) (l : List Word)
@[simp] theorem State.setStack_cfg : (s.setStack l).cfg = s.cfg := rfl
@[simp] theorem State.setStack_mem : (s.setStack l).mem = s.mem := rfl
@[simp] theorem State.setStack_v : (s.setStack l).v = s.v := rfl
@[simp] theorem State.setStack_i : (s.setStack l).i = s.i := rfl
@[simp] theorem State.setStack_pc : (s.setStack l).pc = s.pc := rfl
@[simp] theorem State.setStack_stack : (s.setStack l).stack = l := rfl
@[simp] theorem State.setStack_dt : (s.setStack l).dt = s.dt := rfl
@[simp] theorem State.setStack_st : (s.setStack l).st = s.st := rfl
@[simp] theorem State.setStack_key : (s.setStack l).key = s.key := rfl
@[simp] theorem State.setStack_disp : (s.setStack l).disp = s.disp := rfl
@[simp] theorem State.setStack_fault : (s.setStack l).fault = s.fault := rfl
@[simp] theorem State.setStack_response : (s.setStack l).response = s.response := rfl
@[simp] theorem State.setStack_draws : (s.setStack l).draws = s.draws := rfl
@[simp] theorem State.setStack_readV (y : Nibble) : (s.setStack l).readV y = s.readV y := rfl
@[simp] theorem State.setStack_keyPressed (j : Nibble) : (s.setStack l).keyPressed j = s.keyPressed j := rfl
@[simp] theorem State.setStack_readMem (a : Nat) : (s.setStack l).readMem a = s.readMem a := rfl
end setStackFields

section setDtFields
variable (s : State) (b : Byte)
@[simp] theorem State.setDt_cfg : (s.setDt b).cfg = s.cfg := rfl
@[simp] theorem State.setDt_mem : (s.setDt b).mem = s.mem := rfl
@[simp] theorem State.setDt_v : (s.setDt b).v = s.v := rfl
@[simp] theorem State.setDt_i : (s.setDt b).i = s.i := rfl
@[simp] theorem State.setDt_pc : (s.setDt b).pc = s.pc := rfl
@[simp] theorem State.setDt_stack : (s.setDt b).stack = s.stack := rfl
@[simp] theorem State.setDt_dt : (s.setDt b).dt = b := rfl
@[simp] theorem State.setDt_st : (s.setDt b).st = s.st := rfl
@[simp] theorem State.setDt_key : (s.setDt b).key = s.key := rfl
@[simp] theorem State.setDt_disp : (s.setDt b).disp = s.disp := rfl
@[simp] theorem State.setDt_fault : (s.setDt b).fault = s.fault := rfl
@[simp] theorem State.setDt_response : (s.setDt b).response = s.response := rfl
@[simp] theorem State.setDt_draws : (s.setDt b).draws = s.draws := rfl
@[simp] theorem State.setDt_readV (y : Nibble) : (s.setDt b).readV y = s.readV y := rfl
@[simp] theorem State.setDt_keyPressed (j : Nibble) : (s.setDt b).keyPressed j = s.keyPressed j := rfl
@[simp] theorem State.setDt_readMem (a : Nat) : (s.setDt b).readMem a = s.readMem a := rfl
end setDtFields

section setStFields
variable (s : State) (b : Byte)
@[simp] theorem State.setSt_cfg : (s.setSt b).cfg = s.cfg := rfl
@[simp] theorem State.setSt_mem : (s.setSt b).mem = s.mem := rfl
@[simp] theorem State.setSt_v : (s.setSt b).v = s.v := rfl
@[simp] theorem State.setSt_i : (s.setSt b).i = s.i := rfl
@[simp] theorem State.setSt_pc : (s.setSt b).pc = s.pc := rfl
@[simp] theorem State.setSt_stack : (s.setSt b).stack = s.stack := rfl
@[simp] theorem State.setSt_dt : (s.setSt b).dt = s.dt := rfl
@[simp] theorem State.setSt_st : (s.setSt b).st = b := rfl
@[simp] theorem State.setSt_key : (s.setSt b).key = s.key := rfl
@[simp] theorem State.setSt_disp : (s.setSt b).disp = s.disp := rfl
@[simp] theorem State.setSt_fault : (s.setSt b).fault = s.fault := rfl
@[simp] theorem State.setSt_response : (s.setSt b).response = s.response := rfl
@[simp] theorem State.setSt_draws : (s.setSt b).draws = s.draws := rfl
@[simp] theorem State.setSt_readV (y : Nibble) : (s.setSt b).readV y = s.readV y := rfl
@[simp] theorem State.setSt_keyPressed (j : Nibble) : (s.setSt b).keyPressed j = s.keyPressed j := rfl
@[simp] theorem State.setSt_readMem (a : Nat) : (s.setSt b).readMem a = s.readMem a := rfl
end setStFields

section setDispFields
variable (s : State) (d : Display)
@[simp] theorem State.setDisp_cfg : (s.setDisp d).cfg = s.cfg := rfl
@[simp] theorem State.setDisp_mem : (s.setDisp d).mem = s.mem := rfl
@[simp] theorem State.setDisp_v : (s.setDisp d).v = s.v := rfl
@[simp] theorem State.setDisp_i : (s.setDisp d).i = s.i := rfl
@[simp] theorem State.setDisp_pc : (s.setDisp d).pc = s.pc := rfl
@[simp] theorem State.setDisp_stack : (s.setDisp d).stack = s.stack := rfl
@[simp] theorem State.setDisp_dt : (s.setDisp d).dt = s.dt := rfl
@[simp] theorem State.setDisp_st : (s.setDisp d).st = s.st := rfl
@[simp] theorem State.setDisp_key : (s.setDisp d).key = s.key := rfl
@[simp] theorem State.setDisp_disp : (s.setDisp d).disp = d := rfl
@[simp] theorem State.setDisp_fault : (s.setDisp d).fault = s.fault := rfl
@[simp] theorem State.setDisp_response : (s.setDisp d).response = s.response := rfl
@[simp] theorem State.setDisp_draws : (s.setDisp d).draws = s.draws := rfl
@[simp] theorem State.setDisp_readV (y : Nibble) : (s.setDisp d).readV y = s.readV y := rfl
@[simp] theorem State.setDisp_keyPressed (j : Nibble) : (s.setDisp d).keyPressed j = s.keyPressed j := rfl
@[simp] theorem State.setDisp_readMem (a : Nat) : (s.setDisp d).readMem a = s.readMem a := rfl
end setDispFields

section setMemFields
variable (s : State) (m : Memory)
@[simp] theorem State.setMem_cfg : (s.setMem m).cfg = s.cfg := rfl
@[simp] theorem State.setMem_mem : (s.setMem m).mem = m := rfl
@[simp] theorem State.setMem_v : (s.setMem m).v = s.v := rfl
@[simp] theorem State.setMem_i : (s.setMem m).i = s.i := rfl
@[simp] theorem State.setMem_pc : (s.setMem m).pc = s.pc := rfl
@[simp] theorem State.setMem_stack : (s.setMem m).stack = s.stack := rfl
@[simp] theorem State.setMem_dt : (s.setMem m).dt = s.dt := rfl
@[simp] theorem State.setMem_st : (s.setMem m).st = s.st := rfl
@[simp] theorem State.setMem_key : (s.setMem m).key = s.key := rfl
@[simp] theorem State.setMem_disp : (s.setMem m).disp = s.disp := rfl
@[simp] theorem State.setMem_fault : (s.setMem m).fault = s.fault := rfl
@[simp] theorem State.setMem_response : (s.setMem m).response = s.response := rfl
@[simp] theorem State.setMem_draws : (s.setMem m).draws = s.draws := rfl
@[simp] theorem State.setMem_readV (y : Nibble) : (s.setMem m).readV y = s.readV y := rfl
@[simp] theorem State.setMem_keyPressed (j : Nibble) : (s.setMem m).keyPressed j = s.keyPressed j := rfl
end setMemFields

section setKeyFields
variable (s : State) (k : Nibble) (p : Bool)
@[simp] theorem State.setKey_cfg : (s.setKey k p).cfg = s.cfg := rfl
@[simp] theorem State.setKey_mem : (s.setKey k p).mem = s.mem := rfl
@[simp] theorem State.setKey_v : (s.setKey k p).v = s.v := rfl
@[simp] theorem State.setKey_i : (s.setKey k p).i = s.i := rfl
@[simp] theorem State.setKey_pc : (s.setKey k p).pc = s.pc := rfl
@[simp] theorem State.setKey_stack : (s.setKey k p).stack = s.stack := rfl
@[simp] theorem State.setKey_dt : (s.setKey k p).dt = s.dt := rfl
@[simp] theorem State.setKey_st : (s.setKey k p).st = s.st := rfl
@[simp] theorem State.setKey_key : (s.setKey k p).key = s.key.set k.toNat p k.isLt := rfl
@[simp] theorem State.setKey_disp : (s.setKey k p).disp = s.disp := rfl
@[simp] theorem State.setKey_fault : (s.setKey k p).fault = s.fault := rfl
@[simp] theorem State.setKey_response : (s.setKey k p).response = s.response := rfl
@[simp] theorem State.setKey_draws : (s.setKey k p).draws = s.draws := rfl
@[simp] theorem State.setKey_readV (y : Nibble) : (s.setKey k p).readV y = s.readV y := rfl
@[simp] theorem State.setKey_readMem (a : Nat) : (s.setKey k p).readMem a = s.readMem a := rfl
end setKeyFields

section respondFields
variable (s : State) (r : TickResponse)
@[simp] theorem State.respond_cfg : (s.respond r).cfg = s.cfg := rfl
@[simp] theorem State.respond_mem : (s.respond r).mem = s.mem := rfl
@[simp] theorem State.respond_v : (s.respond r).v = s.v := rfl
@[simp] theorem State.respond_i : (s.respond r).i = s.i := rfl
@[simp] theorem State.respond_pc : (s.respond r).pc = s.pc := rfl
@[simp] theorem State.respond_stack : (s.respond r).stack = s.stack := rfl
@[simp] theorem State.respond_dt : (s.respond r).dt = s.dt := rfl
@[simp] theorem State.respond_st : (s.respond r).st = s.st := rfl
@[simp] theorem State.respond_key : (s.respond r).key = s.key := rfl
@[simp] theorem State.respond_disp : (s.respond r).disp = s.disp := rfl
@[simp] theorem State.respond_fault : (s.respond r).fault = s.fault := rfl
@[simp] theorem State.respond_response : (s.respond r).response = some r := rfl
@[simp] theorem State.respond_draws : (s.respond r).draws = s.draws := rfl
@[simp] theorem State.respond_readV (y : Nibble) : (s.respond r).readV y = s.readV y := rfl
@[simp] theorem State.respond_keyPressed (j : Nibble) : (s.respond r).keyPressed j = s.keyPressed j := rfl
@[simp] theorem State.respond_readMem (a : Nat) : (s.respond r).readMem a = s.readMem a := rfl
end respondFields

section countDrawFields
variable (s : State) 
@[simp] theorem State.countDraw_cfg : (s.countDraw).cfg = s.cfg := rfl
@[simp] theorem State.countDraw_mem : (s.countDraw).mem = s.mem := rfl
@[simp] theorem State.countDraw_v : (s.countDraw).v = s.v := rfl
@[simp] theorem State.countDraw_i : (s.countDraw).i = s.i := rfl
@[simp] theorem State.countDraw_pc : (s.countDraw).pc = s.pc := rfl
@[simp] theorem State.countDraw_stack : (s.countDraw).stack = s.stack := rfl
@[simp] theorem State.countDraw_dt : (s.countDraw).dt = s.dt := rfl
@[simp] theorem State.countDraw_st : (s.countDraw).st = s.st := rfl
@[simp] theorem State.countDraw_key : (s.countDraw).key = s.key := rfl
@[simp] theorem State.countDraw_disp : (s.countDraw).disp = s.disp := rfl
@[simp] theorem State.countDraw_fault : (s.countDraw).fault = s.fault := rfl
@[simp] theorem State.countDraw_response : (s.countDraw).response = s.response := rfl
@[simp] theorem State.countDraw_draws : (s.countDraw).draws = s.draws + 1 := rfl
@[simp] theorem State.countDraw_readV (y : Nibble) : (s.countDraw).readV y = s.readV y := rfl
@[simp] theorem State.countDraw_keyPressed (j : Nibble) : (s.countDraw).keyPressed j = s.keyPressed j := rfl
@[simp] theorem State.countDraw_readMem (a : Nat) : (s.countDraw).readMem a = s.readMem a := rfl
end countDrawFields

section latchFields
variable (s : State) (r : FaultRecord)
@[simp] theorem State.latch_cfg : (s.latch r).cfg = s.cfg := rfl
@[simp] theorem State.latch_mem : (s.latch r).mem = s.mem := rfl
@[simp] theorem State.latch_v : (s.latch r).v = s.v := rfl
@[simp] theorem State.latch_i : (s.latch r).i = s.i := rfl
@[simp] theorem State.latch_pc : (s.latch r).pc = s.pc := rfl
@[simp] theorem State.latch_stack : (s.latch r).stack = s.stack := rfl
@[simp] theorem State.latch_dt : (s.latch r).dt = s.dt := rfl
@[simp] theorem State.latch_st : (s.latch r).st = s.st := rfl
@[simp] theorem State.latch_key : (s.latch r).key = s.key := rfl
@[simp] theorem State.latch_disp : (s.latch r).disp = s.disp := rfl
@[simp] theorem State.latch_fault : (s.latch r).fault = s.fault.or (some r) := rfl
@[simp] theorem State.latch_response : (s.latch r).response = some (.fault r) := rfl
@[simp] theorem State.latch_draws : (s.latch r).draws = s.draws := rfl
@[simp] theorem State.latch_readV (y : Nibble) : (s.latch r).readV y = s.readV y := rfl
@[simp] theorem State.latch_keyPressed (j : Nibble) : (s.latch r).keyPressed j = s.keyPressed j := rfl
@[simp] theorem State.latch_readMem (a : Nat) : (s.latch r).readMem a = s.readMem a := rfl
end latchFields

/-- `V[x] <- b` is seen at `x` and nowhere else. -/
@[simp] theorem State.readV_writeV (s : State) (x y : Nibble) (b : Byte) :
    (s.writeV x b).readV y = if x = y then b else s.readV y := by
  simp only [State.readV, State.writeV, Vector.getElem_set, BitVec.toNat_inj]

theorem State.readV_writeV_same (s : State) (x : Nibble) (b : Byte) : (s.writeV x b).readV x = b := by simp

theorem State.readV_writeV_other (s : State) (x y : Nibble) (b : Byte) (h : y ≠ x) :
    (s.writeV x b).readV y = s.readV y := by
  simp [Ne.symm h]

/-- `key[k] <- p` is seen at `k` and nowhere else. -/
@[simp] theorem State.keyPressed_setKey (s : State) (k j : Nibble) (p : Bool) :
    (s.setKey k p).keyPressed j = if k = j then p else s.keyPressed j := by
  simp only [State.keyPressed, State.setKey, Vector.getElem_set, BitVec.toNat_inj]

/-- A state's registers are what `readV` sees of them. -/
theorem State.v_eq_of_readV (s t : State) (h : ∀ x, t.readV x = s.readV x) : t.v = s.v := by
  apply Vector.ext
  intro k hk
  have := h (BitVec.ofNat 4 k)
  have hk' : (BitVec.ofNat 4 k).toNat = k := by simp; omega
  simpa only [State.readV, hk'] using this

end Sys2Proof.Machine
end

