-- ==== Sys2Proof/Laws/Display.lean ====
section
/-! SUPPORT. The display: what a flip, a row and a whole sprite do to each pixel (43_display.md). -/

namespace Sys2Proof.Machine

/-- A flip inverts one pixel of the grid and leaves every other. -/
theorem Display.pixel_flip (d : Display) (r c r' c' : Nat) (hc : c < (d[r]?.getD []).length) :
    Display.pixel (Display.flip d r c) r' c' =
      if r = r' ∧ c = c' then !Display.pixel d r' c' else Display.pixel d r' c' := by
  unfold Display.pixel Display.flip
  rw [List.getElem?_modify]
  by_cases hr : r = r'
  · subst hr
    cases hrow : d[r]? with
    | none => simp [hrow] at hc
    | some row =>
      simp only [hrow, Option.getD_some] at hc
      by_cases hcc : c = c'
      · subst hcc
        simp [hc]
      · simp [hcc]
  · simp [hr]

theorem Display.shaped_row {cfg : Config} {d : Display} (h : Display.shaped cfg d) {r c : Nat} (hr : r < cfg.height)
    (hc : c < cfg.width) : c < (d[r]?.getD []).length := by
  have hr' : r < d.length := by rw [h.1]; exact hr
  simp only [List.getElem?_eq_getElem hr', Option.getD_some]
  rw [h.2 _ (List.getElem_mem hr')]; exact hc

/-- A flip keeps the shape of the display. -/
theorem Display.shaped_flip {cfg : Config} {d : Display} (h : Display.shaped cfg d) (r c : Nat) :
    Display.shaped cfg (Display.flip d r c) := by
  refine ⟨by simp [Display.flip, h.1], fun row hrow => ?_⟩
  obtain ⟨k, hk, rfl⟩ := List.getElem_of_mem hrow
  simp only [Display.flip, List.length_modify] at hk
  have := h.2 _ (List.getElem_mem hk)
  simp only [Display.flip, List.getElem_modify]
  split <;> simp [this]

theorem Display.shaped_blank (cfg : Config) : Display.shaped cfg (blankDisplay cfg.width cfg.height) := by
  refine ⟨by simp [blankDisplay], fun row hrow => ?_⟩
  simp only [blankDisplay, List.mem_replicate] at hrow
  simp [hrow.2]

@[simp] theorem Display.pixel_blank (w h r c : Nat) : Display.pixel (blankDisplay w h) r c = false := by
  simp only [Display.pixel, blankDisplay, List.getElem?_replicate]
  split
  · simp only [Option.getD_some, List.getElem?_replicate]; split <;> rfl
  · rfl

/-- One row of a sprite, its first `m` bits: what it does to each pixel and to the collision flag. -/
theorem blitBits_spec {cfg : Config} {row x0 m : Nat} (b : Byte) (acc : Blit) (hm : m ≤ 8) (hrow : row < cfg.height)
    (hs : Display.shaped cfg acc.disp) :
    let out := (List.range m).foldl (blitBit cfg.width row x0 b) acc
    Display.shaped cfg out.disp ∧
    (∀ r c, Display.pixel out.disp r c =
      (Display.pixel acc.disp r c ^^
        decide (r = row ∧ x0 ≤ c ∧ c < x0 + m ∧ c < cfg.width ∧ b.getLsbD (7 - (c - x0)) = true))) ∧
    (out.hit = true ↔ acc.hit = true ∨
      ∃ c, x0 ≤ c ∧ c < x0 + m ∧ c < cfg.width ∧ b.getLsbD (7 - (c - x0)) = true ∧
        Display.pixel acc.disp row c = true) := by
  induction m with
  | zero =>
    refine ⟨hs, fun r c => ?_, ?_⟩
    · rw [decide_eq_false (by rintro ⟨h1, h2, h3, -⟩; omega)]; simp
    · simp only [List.range_zero, List.foldl_nil, iff_self_or]
      rintro ⟨c, h1, h2, -⟩; omega
  | succ m ih =>
    obtain ⟨ih1, ih2, ih3⟩ := ih (by omega)
    simp only [List.range_succ, List.foldl_append, List.foldl_cons, List.foldl_nil]
    generalize (List.range m).foldl (blitBit cfg.width row x0 b) acc = out at ih1 ih2 ih3 ⊢
    have hnew : Display.pixel out.disp row (x0 + m) = Display.pixel acc.disp row (x0 + m) := by
      rw [ih2]; simp
    unfold blitBit
    by_cases hw : cfg.width ≤ x0 + m
    · rw [if_pos hw]
      refine ⟨ih1, fun r c => ?_, ?_⟩
      · rw [ih2]; congr 1; rw [decide_eq_decide]
        constructor <;> rintro ⟨h1, h2, h3, h4, h5⟩ <;> exact ⟨h1, h2, by omega, h4, h5⟩
      · rw [ih3]; refine or_congr Iff.rfl (exists_congr fun c => ?_)
        constructor <;> rintro ⟨h1, h2, h3, h4⟩ <;> exact ⟨h1, by omega, h3, h4⟩
    · rw [if_neg hw]
      cases hb : b.getLsbD (7 - m) with
      | false =>
        rw [if_neg (by simp)]
        have hne : ∀ c, b.getLsbD (7 - (c - x0)) = true → x0 ≤ c → c < x0 + (m + 1) → c < x0 + m := by
          intro c h1 h2 h3
          by_contra h4
          have : c - x0 = m := by omega
          rw [this, hb] at h1; simp at h1
        refine ⟨ih1, fun r c => ?_, ?_⟩
        · rw [ih2]; congr 1; rw [decide_eq_decide]
          constructor <;> rintro ⟨h1, h2, h3, h4, h5⟩
          · exact ⟨h1, h2, by omega, h4, h5⟩
          · exact ⟨h1, h2, hne c h5 h2 h3, h4, h5⟩
        · rw [ih3]; refine or_congr Iff.rfl (exists_congr fun c => ?_)
          constructor <;> rintro ⟨h1, h2, h3, h4, h5⟩
          · exact ⟨h1, by omega, h3, h4, h5⟩
          · exact ⟨h1, hne c h4 h1 h2, h3, h4, h5⟩
      | true =>
        rw [if_pos rfl]
        refine ⟨Display.shaped_flip ih1 _ _, fun r c => ?_, ?_⟩
        · rw [Display.pixel_flip _ _ _ _ _ (Display.shaped_row ih1 hrow (by omega)), ih2]
          by_cases hrc : row = r ∧ x0 + m = c
          · obtain ⟨rfl, rfl⟩ := hrc
            have hw' : x0 + m < cfg.width := by omega
            simp [hb, hw']
          · rw [if_neg hrc]; congr 1; rw [decide_eq_decide]
            constructor
            · rintro ⟨h1, h2, h3, h4, h5⟩; exact ⟨h1, h2, by omega, h4, h5⟩
            · rintro ⟨h1, h2, h3, h4, h5⟩
              refine ⟨h1, h2, ?_, h4, h5⟩
              by_contra h6
              exact hrc ⟨h1.symm, by omega⟩
        · simp only [Bool.or_eq_true, ih3, hnew, or_assoc]
          refine or_congr Iff.rfl ?_
          constructor
          · rintro (⟨c, h1, h2, h3, h4, h5⟩ | h)
            · exact ⟨c, h1, by omega, h3, h4, h5⟩
            · refine ⟨x0 + m, by omega, by omega, by omega, ?_, h⟩
              rw [show x0 + m - x0 = m by omega, hb]
          · rintro ⟨c, h1, h2, h3, h4, h5⟩
            by_cases hc : c = x0 + m
            · subst hc; exact .inr h5
            · exact .inl ⟨c, h1, by omega, h3, h4, h5⟩

/-- THE LAW OF A SPRITE (R201, R203, R204): every pixel of the display is XORed with the sprite's bit for it, and the
collision flag says whether a pixel that was on had a 1 bit. -/
theorem State.blitSprite_spec {s : State} {x0 y0 n : Nat} (hs : Display.shaped s.cfg s.disp) :
    Display.shaped s.cfg (s.blitSprite x0 y0 n).disp ∧
    (∀ r c, Display.pixel (s.blitSprite x0 y0 n).disp r c =
      (Display.pixel s.disp r c ^^
        (decide (r < s.cfg.height ∧ c < s.cfg.width) && s.spriteBit x0 y0 n r c))) ∧
    ((s.blitSprite x0 y0 n).hit = true ↔
      ∃ r c, (r < s.cfg.height ∧ c < s.cfg.width) ∧ s.spriteBit x0 y0 n r c = true ∧
        Display.pixel s.disp r c = true) := by
  unfold State.blitSprite
  induction n with
  | zero =>
    have hzero : ∀ r c, s.spriteBit x0 y0 0 r c = false := by
      intro r c; unfold State.spriteBit; rw [decide_eq_false (by omega)]; rfl
    refine ⟨hs, fun r c => ?_, ?_⟩ <;> simp [hzero]
  | succ n ih =>
    obtain ⟨ih1, ih2, ih3⟩ := ih
    simp only [List.range_succ, List.foldl_append, List.foldl_cons, List.foldl_nil]
    generalize (List.range n).foldl _ _ = out at ih1 ih2 ih3 ⊢
    have hlow : ∀ r c, r ≠ y0 + n → s.spriteBit x0 y0 (n + 1) r c = s.spriteBit x0 y0 n r c := by
      intro r c hr; unfold State.spriteBit; congr 1; rw [decide_eq_decide]; omega
    have hnone : ∀ c, s.spriteBit x0 y0 n (y0 + n) c = false := by
      intro c; unfold State.spriteBit; simp
    by_cases hh : s.cfg.height ≤ y0 + n
    · rw [if_pos hh]
      refine ⟨ih1, fun r c => ?_, ?_⟩
      · rw [ih2]
        by_cases hr : r = y0 + n
        · subst hr
          have hf : ¬(y0 + n < s.cfg.height ∧ c < s.cfg.width) := by omega
          simp [hf]
        · rw [hlow r c hr]
      · rw [ih3]; refine exists_congr fun r => exists_congr fun c => and_congr_right fun hrc => ?_
        rw [hlow r c (by omega)]
    · rw [if_neg hh]
      obtain ⟨b1, b2, b3⟩ := blitBits_spec (cfg := s.cfg) (row := y0 + n) (x0 := x0) (m := 8)
        (s.readMem (s.i.toNat + n)) out (le_refl _) (by omega) ih1
      unfold blitRow
      have hbit : ∀ c, (decide (y0 + n < s.cfg.height ∧ c < s.cfg.width) && s.spriteBit x0 y0 (n + 1) (y0 + n) c) =
          decide (x0 ≤ c ∧ c < x0 + 8 ∧ c < s.cfg.width ∧
            (s.readMem (s.i.toNat + n)).getLsbD (7 - (c - x0)) = true) := by
        intro c
        unfold State.spriteBit
        rw [Bool.eq_iff_iff]
        simp only [Bool.and_eq_true, decide_eq_true_eq, Nat.add_sub_cancel_left]
        constructor
        · rintro ⟨⟨h1, h2⟩, ⟨h3, h4, h5, h6⟩, h7⟩; exact ⟨h5, h6, h2, h7⟩
        · rintro ⟨h1, h2, h3, h4⟩; exact ⟨⟨by omega, h3⟩, ⟨by omega, by omega, h1, h2⟩, h4⟩
      refine ⟨b1, fun r c => ?_, ?_⟩
      · rw [b2, ih2]
        by_cases hr : r = y0 + n
        · subst hr
          rw [hnone, hbit]; simp
        · rw [hlow r c hr]; simp [hr]
      · rw [b3, ih3]
        constructor
        · rintro (⟨r, c, h1, h2, h3⟩ | ⟨c, h1, h2, h3, h4, h5⟩)
          · refine ⟨r, c, h1, ?_, h3⟩
            rw [hlow r c]; · exact h2
            rintro rfl; rw [hnone] at h2; simp at h2
          · have hb := (hbit c).trans (decide_eq_true ⟨h1, h2, h3, h4⟩)
            rw [Bool.and_eq_true, decide_eq_true_eq] at hb
            refine ⟨y0 + n, c, hb.1, hb.2, ?_⟩
            rw [ih2, hnone] at h5; simpa using h5
        · rintro ⟨r, c, h1, h2, h3⟩
          by_cases hr : r = y0 + n
          · subst hr
            right
            have hb := (hbit c).symm.trans (by rw [Bool.and_eq_true, decide_eq_true_eq]; exact ⟨h1, h2⟩)
            rw [decide_eq_true_eq] at hb
            obtain ⟨g1, g2, g3, g4⟩ := hb
            refine ⟨c, g1, g2, g3, g4, ?_⟩
            rw [ih2, hnone]; simpa using h3
          · rw [hlow r c hr] at h2
            exact .inl ⟨r, c, h1, h2, h3⟩

/-- Two displays of one shape with the same pixels are the same. -/
theorem Display.ext_of_pixels {cfg : Config} {d e : Display} (hd : Display.shaped cfg d) (he : Display.shaped cfg e)
    (h : ∀ r c, r < cfg.height → c < cfg.width → Display.pixel d r c = Display.pixel e r c) : d = e := by
  apply List.ext_getElem (by rw [hd.1, he.1])
  intro r h1 h2
  apply List.ext_getElem
  · rw [hd.2 _ (List.getElem_mem h1), he.2 _ (List.getElem_mem h2)]
  · intro c h3 h4
    have hc : c < cfg.width := by rw [← hd.2 _ (List.getElem_mem h1)]; exact h3
    have := h r c (by rw [← hd.1]; exact h1) hc
    simpa [Display.pixel, h1, h2, h3, h4] using this

end Sys2Proof.Machine
end

