-- ==== Sys2Proof/Laws/Memory.lean ====
section
/-! SUPPORT. The laws of memory: a write is read back, leaves every other byte, and keeps the canonical form. -/

namespace Sys2Proof.Machine

variable (font : Vector Byte 80)

/-- The font range in numbers (R61). -/
theorem inFont_iff {a : Nat} : inFont a = true ↔ 0x50 ≤ a ∧ a < 0xA0 := by
  simp [inFont, fontBase, fontSize]

theorem inFont_eq_false_iff {a : Nat} : inFont a = false ↔ ¬(0x50 ≤ a ∧ a < 0xA0) := by
  rw [← inFont_iff, Bool.not_eq_true]

@[simp] theorem Memory.read_nil (a : Nat) : Memory.read font [] a = Memory.unlisted font a := rfl

theorem Memory.read_cons (p : Nat) (b : Byte) (m : Memory) (a : Nat) :
    Memory.read font ((p, b) :: m) a = if p = a then b else Memory.read font m a := rfl

/-- Erasing a cell uncovers the reset contents there and nothing else. -/
theorem Memory.read_erase (m : Memory) (a c : Nat) :
    Memory.read font (Memory.erase m a) c = if a = c then Memory.unlisted font c else Memory.read font m c := by
  induction m with
  | nil => simp [Memory.erase]
  | cons head tail ih =>
    obtain ⟨p, b⟩ := head
    by_cases hp : p = a
    · subst hp
      have : Memory.erase ((p, b) :: tail) p = Memory.erase tail p := by simp [Memory.erase]
      rw [this, ih, Memory.read_cons]
      split <;> rfl
    · have : Memory.erase ((p, b) :: tail) a = (p, b) :: Memory.erase tail a := by simp [Memory.erase, hp]
      rw [this, Memory.read_cons, ih, Memory.read_cons]
      by_cases hc : p = c
      · simp [hc, show a ≠ c from fun h => hp (hc.trans h.symm)]
      · simp [hc]

/-- A cell inserted at an address that is not listed is read there and nowhere else. -/
theorem Memory.read_insert (m : Memory) (a : Nat) (b : Byte) (c : Nat) (h : ∀ d ∈ m, d.1 ≠ a) :
    Memory.read font (Memory.insert m a b) c = if a = c then b else Memory.read font m c := by
  induction m with
  | nil => rfl
  | cons head tail ih =>
    obtain ⟨p, e⟩ := head
    have hp : p ≠ a := h (p, e) (by simp)
    simp only [Memory.insert]
    split
    · simp only [Memory.read_cons]
    · rw [Memory.read_cons, ih fun d hd => h d (by simp [hd]), Memory.read_cons]
      by_cases hc : p = c
      · simp [hc, show a ≠ c from fun q => hp (hc.trans q.symm)]
      · simp [hc]

theorem Memory.mem_erase {m : Memory} {a : Nat} {d : Host.Cell} : d ∈ Memory.erase m a ↔ d ∈ m ∧ d.1 ≠ a := by
  simp [Memory.erase]

/-- THE LAW OF A WRITE: the byte written is read back at its address, and every other address reads as before. It holds
of every memory, canonical or not. -/
theorem Memory.read_write (m : Memory) (a : Nat) (b : Byte) (c : Nat) :
    Memory.read font (Memory.write font m a b) c = if a = c then b else Memory.read font m c := by
  unfold Memory.write
  split
  · next h =>
    rw [Memory.read_erase]
    split
    · next hc => rw [h, hc]
    · rfl
  · rw [Memory.read_insert font _ _ _ _ fun d hd => (Memory.mem_erase.1 hd).2, Memory.read_erase]
    split <;> rfl

theorem Memory.mem_insert {m : Memory} {a : Nat} {b : Byte} {d : Host.Cell} :
    d ∈ Memory.insert m a b ↔ d = (a, b) ∨ d ∈ m := by
  induction m with
  | nil => simp [Memory.insert]
  | cons head tail ih =>
    obtain ⟨p, e⟩ := head
    simp only [Memory.insert]
    split
    · simp
    · simp only [List.mem_cons, ih]; tauto

theorem Memory.sorted_insert {m : Memory} {a : Nat} {b : Byte}
    (h : m.Pairwise fun c d => c.1 < d.1) (ha : ∀ d ∈ m, d.1 ≠ a) :
    (Memory.insert m a b).Pairwise fun c d => c.1 < d.1 := by
  induction m with
  | nil => simp [Memory.insert]
  | cons head tail ih =>
    obtain ⟨p, e⟩ := head
    rw [List.pairwise_cons] at h
    have hp : p ≠ a := ha (p, e) (by simp)
    simp only [Memory.insert]
    split
    · next hlt =>
      refine List.pairwise_cons.2 ⟨fun d hd => ?_, List.pairwise_cons.2 h⟩
      rcases List.mem_cons.1 hd with rfl | hd
      · exact hlt
      · exact lt_trans hlt (h.1 d hd)
    · next hlt =>
      refine List.pairwise_cons.2 ⟨fun d hd => ?_, ih h.2 fun d hd => ha d (by simp [hd])⟩
      rcases Memory.mem_insert.1 hd with rfl | hd
      · exact lt_of_le_of_ne (Nat.le_of_not_lt hlt) hp
      · exact h.1 d hd

/-- A write inside memory keeps the canonical form. -/
theorem Memory.wf_write {m : Memory} {a : Nat} {b : Byte} (h : Memory.wf font m) (ha : a < memSize) :
    Memory.wf font (Memory.write font m a b) := by
  have hs : (Memory.erase m a).Pairwise fun c d => c.1 < d.1 := h.1.filter _
  have hm : ∀ d ∈ Memory.erase m a, d.1 < memSize ∧ d.2 ≠ Memory.unlisted font d.1 :=
    fun d hd => h.2 d (Memory.mem_erase.1 hd).1
  unfold Memory.write
  split
  · exact ⟨hs, hm⟩
  · next hb =>
    refine ⟨Memory.sorted_insert hs fun d hd => (Memory.mem_erase.1 hd).2, fun d hd => ?_⟩
    rcases Memory.mem_insert.1 hd with rfl | hd
    · exact ⟨ha, hb⟩
    · exact hm d hd

theorem Memory.wf_nil : Memory.wf font [] := ⟨List.Pairwise.nil, by simp⟩

/-- THE LAW OF A RANGE WRITE: address `base + k` reads the `k`-th byte written, every address outside the range reads as
before. -/
theorem Memory.read_writeAll (m : Memory) (base : Nat) (bs : List Byte) (c : Nat) :
    Memory.read font (Memory.writeAll font m base bs) c =
      if h : base ≤ c ∧ c < base + bs.length then bs[c - base]'(by omega) else Memory.read font m c := by
  induction bs generalizing m base with
  | nil => simp [Memory.writeAll]
  | cons b bs ih =>
    rw [Memory.writeAll, ih, Memory.read_write]
    by_cases hc : base = c
    · subst hc; simp
    · by_cases hin : base + 1 ≤ c ∧ c < base + 1 + bs.length
      · have hin' : base ≤ c ∧ c < base + (b :: bs).length := by simp; omega
        rw [dif_pos hin, dif_pos hin']
        have : c - base = c - (base + 1) + 1 := by omega
        simp only [this, List.getElem_cons_succ]
      · have hin' : ¬(base ≤ c ∧ c < base + (b :: bs).length) := by simp; omega
        rw [dif_neg hin, dif_neg hin', if_neg hc]

/-- A range write inside memory keeps the canonical form. -/
theorem Memory.wf_writeAll {m : Memory} {base : Nat} {bs : List Byte} (h : Memory.wf font m)
    (hin : base + bs.length ≤ memSize) : Memory.wf font (Memory.writeAll font m base bs) := by
  induction bs generalizing m base with
  | nil => exact h
  | cons b bs ih =>
    simp only [List.length_cons] at hin
    exact ih (Memory.wf_write font h (by omega)) (by omega)

/-- What `write_byte` leaves at each address (R232). -/
theorem Memory.read_store (policy : FontWritePolicy) (m : Memory) (a : Nat) (b : Byte) (c : Nat) :
    Memory.read font (Memory.store policy font m a b) c =
      if a = c ∧ ¬(inFont a = true ∧ policy = .ignore) then b else Memory.read font m c := by
  unfold Memory.store
  by_cases h : inFont a = true ∧ policy = .ignore
  · simp [h]
  · have h' : ¬((inFont a && decide (policy = .ignore)) = true) := by simpa using h
    rw [if_neg h', Memory.read_write]
    simp only [h, not_false_eq_true, and_true]

theorem Memory.wf_store {policy : FontWritePolicy} {m : Memory} {a : Nat} {b : Byte} (h : Memory.wf font m)
    (ha : a < memSize) : Memory.wf font (Memory.store policy font m a b) := by
  unfold Memory.store; split
  · exact h
  · exact Memory.wf_write font h ha

/-- THE LAW OF A RANGE STORE: address `base + k` reads the `k`-th byte, but a font byte keeps its value under policy
Ignore; every address outside the range reads as before. -/
theorem Memory.read_storeAll (policy : FontWritePolicy) (m : Memory) (base : Nat) (bs : List Byte) (c : Nat) :
    Memory.read font (Memory.storeAll policy font m base bs) c =
      if h : (base ≤ c ∧ c < base + bs.length) ∧ ¬(inFont c = true ∧ policy = .ignore)
      then bs[c - base]'(by omega) else Memory.read font m c := by
  induction bs generalizing m base with
  | nil => simp [Memory.storeAll]
  | cons b bs ih =>
    rw [Memory.storeAll, ih, Memory.read_store]
    by_cases hk : inFont c = true ∧ policy = .ignore
    · rw [dif_neg fun h => h.2 hk, dif_neg fun h => h.2 hk, if_neg]
      rintro ⟨rfl, h⟩; exact h hk
    · by_cases hc : base = c
      · subst hc; simp [hk]
      · rw [if_neg fun h => hc h.1]
        by_cases hin : base + 1 ≤ c ∧ c < base + 1 + bs.length
        · rw [dif_pos ⟨hin, hk⟩, dif_pos ⟨by simp only [List.length_cons]; omega, hk⟩]
          have : c - base = c - (base + 1) + 1 := by omega
          simp only [this, List.getElem_cons_succ]
        · rw [dif_neg fun h => hin h.1, dif_neg]
          rintro ⟨h, -⟩; simp only [List.length_cons] at h; omega

/-- A range store inside memory keeps the canonical form. -/
theorem Memory.wf_storeAll {policy : FontWritePolicy} {m : Memory} {base : Nat} {bs : List Byte}
    (h : Memory.wf font m) (hin : base + bs.length ≤ memSize) :
    Memory.wf font (Memory.storeAll policy font m base bs) := by
  induction bs generalizing m base with
  | nil => exact h
  | cons b bs ih =>
    simp only [List.length_cons] at hin
    exact ih (Memory.wf_store font h (by omega)) (by omega)

end Sys2Proof.Machine
end

