-- ==== Sys2Proof/Laws/Ops.lean ====
section
/-! SUPPORT. What each shared operation can do, said once. -/

namespace Sys2Proof.Machine

/-! ### Completing and raising -/

theorem complete_eq (changed : Bool) (s : State) : complete changed s = .next (s.respond (.ok changed)) := rfl

theorem raise_eq (ins : Instr) (kind : FaultKind) (bad : Option Nat) (s : State) :
    raise ins kind bad s =
      .next (s.latch { kind := kind, addr := s.pc - 2, word := some (encode ins), bad := bad }) := rfl

/-- The latch takes a record only when it holds none. -/
theorem State.latch_fault_cases (s : State) (r : FaultRecord) :
    (s.fault = none ∧ (s.latch r).fault = some r) ∨ (∃ f, s.fault = some f ∧ (s.latch r).fault = some f) := by
  cases h : s.fault <;> simp [h]

theorem afterCheck_none (ins : Instr) (s : State) (rest : Result) : afterCheck ins none s rest = rest := rfl

theorem afterCheck_some (ins : Instr) (f : AccessFault) (s : State) (rest : Result) :
    afterCheck ins (some f) s rest = raise ins f.kind (some f.bad) s := rfl

/-! ### The checks of an access -/

theorem checkRead_eq_none_iff {base n : Nat} : checkRead base n = none ↔ n = 0 ∨ base + n ≤ memSize := by
  simp only [checkRead, memSize, ite_eq_right_iff, reduceCtorEq, imp_false]; omega

theorem checkRead_eq_some_iff {base n : Nat} {f : AccessFault} :
    checkRead base n = some f ↔ (0 < n ∧ memSize < base + n) ∧ f = ⟨.outOfBounds, max base 0x1000⟩ := by
  unfold checkRead memSize
  by_cases h : 0 < n ∧ 0xFFF < base + n - 1
  · simp only [h, and_self, if_true, Option.some.injEq]; constructor
    · rintro rfl; exact ⟨⟨trivial, by omega⟩, rfl⟩
    · rintro ⟨-, rfl⟩; rfl
  · rw [if_neg h]; simp only [reduceCtorEq, false_iff]; omega

/-- The `bad` address of a failed bounds check is the lowest address of the range above 0xFFF (R63). -/
theorem checkRead_bad_least {base n : Nat} {f : AccessFault} (h : checkRead base n = some f) :
    (base ≤ f.bad ∧ f.bad < base + n ∧ 0xFFF < f.bad) ∧ ∀ p, base ≤ p → 0xFFF < p → f.bad ≤ p := by
  obtain ⟨hr, rfl⟩ := checkRead_eq_some_iff.1 h
  simp only [memSize] at hr ⊢
  exact ⟨⟨by omega, by omega, by omega⟩, fun p h1 h2 => by omega⟩

theorem firstFontHit_def (base n : Nat) :
    firstFontHit base n = if 0 < n ∧ base < 0xA0 ∧ 0x50 < base + n then some (max base 0x50) else none := rfl

theorem firstFontHit_eq_some_iff {base n p : Nat} :
    firstFontHit base n = some p ↔
      (base ≤ p ∧ p < base + n ∧ inFont p = true) ∧ ∀ q, base ≤ q → inFont q = true → p ≤ q := by
  simp only [firstFontHit_def, inFont_iff]
  constructor
  · intro h
    split at h
    · simp only [Option.some.injEq] at h; subst h
      exact ⟨by omega, fun q h1 h2 => by omega⟩
    · simp at h
  · rintro ⟨h1, h2⟩
    have h3 := h2 (max base 0x50) (by omega) (by omega)
    rw [if_pos (by omega)]; simp only [Option.some.injEq]; omega

theorem firstFontHit_eq_none_iff {base n : Nat} :
    firstFontHit base n = none ↔ ∀ q, base ≤ q → q < base + n → inFont q = false := by
  simp only [firstFontHit_def, inFont_eq_false_iff, ite_eq_right_iff, reduceCtorEq, imp_false]
  constructor
  · intro h q h1 h2; omega
  · intro h h'
    have := h (max base 0x50) (by omega) (by omega)
    omega

/-- A write passes its check when its range is in memory and, under policy Fault, touches no font address. -/
theorem checkWrite_eq_none_iff {policy : FontWritePolicy} {base n : Nat} :
    checkWrite policy base n = none ↔
      (n = 0 ∨ base + n ≤ memSize) ∧ (policy = .fault → ∀ q, base ≤ q → q < base + n → inFont q = false) := by
  rw [← checkRead_eq_none_iff, ← firstFontHit_eq_none_iff]
  unfold checkWrite
  cases h : checkRead base n with
  | some f => simp
  | none => cases policy <;> simp

/-- A write fails its check out of bounds, or else, under policy Fault, on the lowest font address it covers. -/
theorem checkWrite_eq_some_iff {policy : FontWritePolicy} {base n : Nat} {f : AccessFault} :
    checkWrite policy base n = some f ↔
      checkRead base n = some f ∨
        (checkRead base n = none ∧ policy = .fault ∧ ∃ p, firstFontHit base n = some p ∧ f = ⟨.readOnly, p⟩) := by
  unfold checkWrite
  cases h : checkRead base n with
  | some g => simp
  | none => cases policy <;> simp [eq_comm]

/-! ### Bytes of memory -/

/-- THE LAW OF A RANGE STORE at the state: the bytes stored, by the font policy, and every other byte as before. -/
theorem State.storeBytes_readMem (s : State) (base : Nat) (bs : List Byte) (c : Nat) :
    (s.storeBytes base bs).readMem c =
      if h : (base ≤ c ∧ c < base + bs.length) ∧ ¬(inFont c = true ∧ s.cfg.fontWritePolicy = .ignore)
      then bs[c - base]'(by omega) else s.readMem c :=
  Memory.read_storeAll _ _ _ _ _ _

/-- A range store touches memory alone. -/
theorem State.storeBytes_eq (s : State) (a : Nat) (bs : List Byte) :
    s.storeBytes a bs = s.setMem (s.storeBytes a bs).mem := rfl

/-! ### Loading registers -/

theorem nibble_ofNat_toNat {k : Nat} (h : k < 16) : (BitVec.ofNat 4 k).toNat = k := by
  rw [BitVec.toNat_ofNat]; omega

theorem nibble_eq_ofNat_iff {x : Nibble} {k : Nat} (h : k < 16) : BitVec.ofNat 4 k = x ↔ k = x.toNat := by
  rw [← BitVec.toNat_inj, nibble_ofNat_toNat h]

/-- THE LAW OF A RANGE LOAD (R235): registers 0 to `n - 1` hold the bytes read, the others what they held. -/
theorem State.loadBytes_readV (s : State) (base n : Nat) (hn : n ≤ 16) (x : Nibble) :
    (s.loadBytes base n).readV x = if x.toNat < n then s.readMem (base + x.toNat) else s.readV x := by
  unfold State.loadBytes State.readV
  induction n with
  | zero => simp
  | succ n ih =>
    simp only [List.range_succ, List.foldl_append, List.foldl_cons, List.foldl_nil, Vector.getElem_set]
    simp only at ih
    rw [ih (by omega), nibble_ofNat_toNat (by omega)]
    by_cases hx : n = x.toNat
    · simp [hx]
    · rw [if_neg hx]
      have : x.toNat < n + 1 ↔ x.toNat < n := by omega
      simp only [this]

/-- Loading registers touches the general registers alone. -/
theorem State.loadBytes_eq (s : State) (base n : Nat) :
    s.loadBytes base n = { s with v := (s.loadBytes base n).v } := rfl

/-! ### Stack, skips, flags, index, keys -/

theorem State.push_eq_none_iff {s : State} {w : Word} : s.push w = none ↔ stackCap ≤ s.stack.length := by
  simp [State.push]

theorem State.push_eq_some_iff {s t : State} {w : Word} :
    s.push w = some t ↔ s.stack.length < stackCap ∧ t = s.setStack (s.stack ++ [w]) := by
  unfold State.push; split
  · simp; omega
  · simp only [Option.some.injEq, eq_comm]; constructor
    · intro h; exact ⟨by omega, h⟩
    · exact fun h => h.2

theorem State.pop_eq_none_iff {s : State} : s.pop = none ↔ s.stack = [] := by
  unfold State.pop
  cases h : s.stack.getLast? with
  | none => simpa using h
  | some w => simp only [reduceCtorEq, false_iff]; rintro h'; simp [h'] at h

theorem State.pop_eq_some_iff {s t : State} {w : Word} :
    s.pop = some (w, t) ↔ ∃ l, s.stack = l ++ [w] ∧ t = s.setStack l := by
  unfold State.pop
  cases h : s.stack.getLast? with
  | none => simp only [List.getLast?_eq_none_iff] at h; simp [h]
  | some u =>
    obtain ⟨l, hl⟩ := List.getLast?_eq_some_iff.1 h
    simp only [hl, List.dropLast_concat, Option.some.injEq, Prod.mk.injEq]
    constructor
    · rintro ⟨rfl, rfl⟩; exact ⟨l, rfl, rfl⟩
    · rintro ⟨m, hm, rfl⟩
      obtain ⟨h1, h2⟩ := List.append_inj' hm rfl
      simp only [List.cons.injEq, and_true] at h2
      exact ⟨h2, by rw [h1]⟩

theorem State.writeResultThenFlag_readV (s : State) (x y : Nibble) (b : Byte) (f : Bool) :
    (s.writeResultThenFlag x b f).readV y = if VF = y then flagByte f else if x = y then b else s.readV y := by
  simp [State.writeResultThenFlag]

/-- The index flag touches VF alone. -/
theorem State.indexFlag_readV (s : State) (sum : Word) (y : Nibble) :
    (s.indexFlag sum).readV y =
      if VF = y then indexFlagByte s.cfg.fx1eVf sum (s.readV VF) else s.readV y := by
  simp [State.indexFlag]

/-- The scan finds nothing exactly when no key is pressed (R266). -/
theorem State.firstPressed_eq_none_iff {s : State} : s.firstPressed = none ↔ ∀ k, s.keyPressed k = false := by
  simp only [State.firstPressed, List.find?_eq_none, List.mem_map, List.mem_range, Bool.not_eq_true,
    forall_exists_index, and_imp]
  constructor
  · intro h k; exact h k k.toNat k.isLt (by simp)
  · rintro h k n - -; exact h k

/-- The scan finds the lowest pressed key (R266). -/
theorem State.firstPressed_eq_some_iff {s : State} {k : Nibble} :
    s.firstPressed = some k ↔ s.keyPressed k = true ∧ ∀ j, j.toNat < k.toNat → s.keyPressed j = false := by
  have key : ∀ n, n ≤ 16 → (((List.range n).map (BitVec.ofNat 4)).find? s.keyPressed = some k ↔
      k.toNat < n ∧ s.keyPressed k = true ∧ ∀ j : Nibble, j.toNat < k.toNat → s.keyPressed j = false) := by
    intro n hn
    induction n with
    | zero => simp
    | succ n ih =>
      rw [List.range_succ, List.map_append, List.find?_append]
      cases hf : ((List.range n).map (BitVec.ofNat 4)).find? s.keyPressed with
      | some j =>
        rw [hf] at ih
        simp only [Option.some_or]
        rw [ih (by omega)]
        constructor
        · rintro ⟨h1, h2⟩; exact ⟨by omega, h2⟩
        · rintro ⟨h1, h2, h3⟩
          refine ⟨?_, h2, h3⟩
          by_contra h4
          have hj := List.find?_some hf
          obtain ⟨m, hm, rfl⟩ := List.mem_map.1 (List.mem_of_find?_eq_some hf)
          rw [List.mem_range] at hm
          rw [h3 _ (by rw [nibble_ofNat_toNat (by omega)]; omega)] at hj
          simp at hj
      | none =>
        rw [Option.none_or]
        rw [List.find?_eq_none] at hf
        have hlow : ∀ j : Nibble, j.toNat < n → s.keyPressed j = false := by
          intro j hj
          have := hf j (List.mem_map.2 ⟨j.toNat, List.mem_range.2 hj, by simp⟩)
          simpa using this
        simp only [List.map_cons, List.map_nil, List.find?_singleton]
        constructor
        · intro h
          split at h
          · next hp =>
            simp only [Option.some.injEq] at h
            have hk := (nibble_eq_ofNat_iff (by omega)).1 h
            refine ⟨by omega, by rwa [← h], fun j hj => hlow j (by omega)⟩
          · simp at h
        · rintro ⟨h1, h2, -⟩
          have hk : n = k.toNat := by
            by_contra hne
            rw [hlow k (by omega)] at h2
            simp at h2
          have hkk := (nibble_eq_ofNat_iff (x := k) (k := n) (by omega)).2 hk
          rw [hkk, if_pos h2]
  have := key 16 (le_refl _)
  have hk := k.isLt
  simpa only [State.firstPressed, show k.toNat < 16 from hk, true_and] using this

end Sys2Proof.Machine
end

