-- ==== Sys2Proof/Laws/PerInstr.lean ====
section
/-! SUPPORT. Per instruction: the encoded word lies in the instruction's row of 30_encoding.md R96. -/

namespace Sys2Proof

/-- A format's word agrees with its fixed part under a mask that covers none of its operand fields. -/
theorem Laws.rowMatches_formatA (f : Word) (nnn : Addr12) (h : f &&& 0xF000 = f) :
    rowMatches ⟨f, 0xF000⟩ (formatA f nnn) = true := by
  simp only [rowMatches, beq_iff_eq, formatA, BitVec.and_or_distrib_right, h]
  rw [show nnn.setWidth 16 &&& (0xF000 : Word) = 0 by ext i hi; interval_cases i <;> simp]; simp

theorem Laws.rowMatches_formatXK (f : Word) (x : Nibble) (nn : Byte) (h : f &&& 0xF000 = f) :
    rowMatches ⟨f, 0xF000⟩ (formatXK f x nn) = true := by
  simp only [rowMatches, beq_iff_eq, formatXK, BitVec.and_or_distrib_right, h]
  rw [show x.setWidth 16 <<< 8 &&& (0xF000 : Word) = 0 by ext i hi; interval_cases i <;> simp,
    show nn.setWidth 16 &&& (0xF000 : Word) = 0 by ext i hi; interval_cases i <;> simp]; simp

theorem Laws.rowMatches_formatXY (f : Word) (x y : Nibble) (h : f &&& 0xF00F = f) :
    rowMatches ⟨f, 0xF00F⟩ (formatXY f x y) = true := by
  simp only [rowMatches, beq_iff_eq, formatXY, BitVec.and_or_distrib_right, h]
  rw [show x.setWidth 16 <<< 8 &&& (0xF00F : Word) = 0 by ext i hi; interval_cases i <;> simp,
    show y.setWidth 16 <<< 4 &&& (0xF00F : Word) = 0 by ext i hi; interval_cases i <;> simp]; simp

theorem Laws.rowMatches_formatXYN (f : Word) (x y n : Nibble) (h : f &&& 0xF000 = f) :
    rowMatches ⟨f, 0xF000⟩ (formatXYN f x y n) = true := by
  simp only [rowMatches, beq_iff_eq, formatXYN, BitVec.and_or_distrib_right, h]
  rw [show x.setWidth 16 <<< 8 &&& (0xF000 : Word) = 0 by ext i hi; interval_cases i <;> simp,
    show y.setWidth 16 <<< 4 &&& (0xF000 : Word) = 0 by ext i hi; interval_cases i <;> simp,
    show n.setWidth 16 &&& (0xF000 : Word) = 0 by ext i hi; interval_cases i <;> simp]; simp

theorem Laws.rowMatches_formatXS (f : Word) (x : Nibble) (h : f &&& 0xF0FF = f) :
    rowMatches ⟨f, 0xF0FF⟩ (formatXS f x) = true := by
  simp only [rowMatches, beq_iff_eq, formatXS, BitVec.and_or_distrib_right, h]
  rw [show x.setWidth 16 <<< 8 &&& (0xF0FF : Word) = 0 by ext i hi; interval_cases i <;> simp]; simp

/-- R96: the encoded word matches the instruction's row. -/
def Laws.OpcodeRow.Statement (i : Instr) : Prop := rowMatches (opcodeRow i) (encode i) = true

theorem Laws.OpcodeRow.cls : Laws.OpcodeRow.Statement .cls := rfl

theorem Laws.OpcodeRow.ret : Laws.OpcodeRow.Statement .ret := rfl

theorem Laws.OpcodeRow.jp (nnn : Addr12) : Laws.OpcodeRow.Statement (.jp nnn) :=
  Laws.rowMatches_formatA _ nnn (by decide)

theorem Laws.OpcodeRow.call (nnn : Addr12) : Laws.OpcodeRow.Statement (.call nnn) :=
  Laws.rowMatches_formatA _ nnn (by decide)

theorem Laws.OpcodeRow.seImm (x : Nibble) (nn : Byte) : Laws.OpcodeRow.Statement (.seImm x nn) :=
  Laws.rowMatches_formatXK _ x nn (by decide)

theorem Laws.OpcodeRow.sneImm (x : Nibble) (nn : Byte) : Laws.OpcodeRow.Statement (.sneImm x nn) :=
  Laws.rowMatches_formatXK _ x nn (by decide)

theorem Laws.OpcodeRow.seReg (x y : Nibble) : Laws.OpcodeRow.Statement (.seReg x y) :=
  Laws.rowMatches_formatXY _ x y (by decide)

theorem Laws.OpcodeRow.ldImm (x : Nibble) (nn : Byte) : Laws.OpcodeRow.Statement (.ldImm x nn) :=
  Laws.rowMatches_formatXK _ x nn (by decide)

theorem Laws.OpcodeRow.addImm (x : Nibble) (nn : Byte) : Laws.OpcodeRow.Statement (.addImm x nn) :=
  Laws.rowMatches_formatXK _ x nn (by decide)

theorem Laws.OpcodeRow.ldReg (x y : Nibble) : Laws.OpcodeRow.Statement (.ldReg x y) :=
  Laws.rowMatches_formatXY _ x y (by decide)

theorem Laws.OpcodeRow.orReg (x y : Nibble) : Laws.OpcodeRow.Statement (.orReg x y) :=
  Laws.rowMatches_formatXY _ x y (by decide)

theorem Laws.OpcodeRow.andReg (x y : Nibble) : Laws.OpcodeRow.Statement (.andReg x y) :=
  Laws.rowMatches_formatXY _ x y (by decide)

theorem Laws.OpcodeRow.xorReg (x y : Nibble) : Laws.OpcodeRow.Statement (.xorReg x y) :=
  Laws.rowMatches_formatXY _ x y (by decide)

theorem Laws.OpcodeRow.addReg (x y : Nibble) : Laws.OpcodeRow.Statement (.addReg x y) :=
  Laws.rowMatches_formatXY _ x y (by decide)

theorem Laws.OpcodeRow.subReg (x y : Nibble) : Laws.OpcodeRow.Statement (.subReg x y) :=
  Laws.rowMatches_formatXY _ x y (by decide)

theorem Laws.OpcodeRow.shr (x y : Nibble) : Laws.OpcodeRow.Statement (.shr x y) :=
  Laws.rowMatches_formatXY _ x y (by decide)

theorem Laws.OpcodeRow.subnReg (x y : Nibble) : Laws.OpcodeRow.Statement (.subnReg x y) :=
  Laws.rowMatches_formatXY _ x y (by decide)

theorem Laws.OpcodeRow.shl (x y : Nibble) : Laws.OpcodeRow.Statement (.shl x y) :=
  Laws.rowMatches_formatXY _ x y (by decide)

theorem Laws.OpcodeRow.sneReg (x y : Nibble) : Laws.OpcodeRow.Statement (.sneReg x y) :=
  Laws.rowMatches_formatXY _ x y (by decide)

theorem Laws.OpcodeRow.ldI (nnn : Addr12) : Laws.OpcodeRow.Statement (.ldI nnn) :=
  Laws.rowMatches_formatA _ nnn (by decide)

theorem Laws.OpcodeRow.jpV0 (nnn : Addr12) : Laws.OpcodeRow.Statement (.jpV0 nnn) :=
  Laws.rowMatches_formatA _ nnn (by decide)

theorem Laws.OpcodeRow.rnd (x : Nibble) (nn : Byte) : Laws.OpcodeRow.Statement (.rnd x nn) :=
  Laws.rowMatches_formatXK _ x nn (by decide)

theorem Laws.OpcodeRow.drw (x y n : Nibble) : Laws.OpcodeRow.Statement (.drw x y n) :=
  Laws.rowMatches_formatXYN _ x y n (by decide)

theorem Laws.OpcodeRow.skp (x : Nibble) : Laws.OpcodeRow.Statement (.skp x) :=
  Laws.rowMatches_formatXS _ x (by decide)

theorem Laws.OpcodeRow.sknp (x : Nibble) : Laws.OpcodeRow.Statement (.sknp x) :=
  Laws.rowMatches_formatXS _ x (by decide)

theorem Laws.OpcodeRow.ldVxDt (x : Nibble) : Laws.OpcodeRow.Statement (.ldVxDt x) :=
  Laws.rowMatches_formatXS _ x (by decide)

theorem Laws.OpcodeRow.ldVxK (x : Nibble) : Laws.OpcodeRow.Statement (.ldVxK x) :=
  Laws.rowMatches_formatXS _ x (by decide)

theorem Laws.OpcodeRow.ldDtVx (x : Nibble) : Laws.OpcodeRow.Statement (.ldDtVx x) :=
  Laws.rowMatches_formatXS _ x (by decide)

theorem Laws.OpcodeRow.ldStVx (x : Nibble) : Laws.OpcodeRow.Statement (.ldStVx x) :=
  Laws.rowMatches_formatXS _ x (by decide)

theorem Laws.OpcodeRow.addIVx (x : Nibble) : Laws.OpcodeRow.Statement (.addIVx x) :=
  Laws.rowMatches_formatXS _ x (by decide)

theorem Laws.OpcodeRow.ldFVx (x : Nibble) : Laws.OpcodeRow.Statement (.ldFVx x) :=
  Laws.rowMatches_formatXS _ x (by decide)

theorem Laws.OpcodeRow.ldBVx (x : Nibble) : Laws.OpcodeRow.Statement (.ldBVx x) :=
  Laws.rowMatches_formatXS _ x (by decide)

theorem Laws.OpcodeRow.storeRegs (x : Nibble) : Laws.OpcodeRow.Statement (.storeRegs x) :=
  Laws.rowMatches_formatXS _ x (by decide)

theorem Laws.OpcodeRow.loadRegs (x : Nibble) : Laws.OpcodeRow.Statement (.loadRegs x) :=
  Laws.rowMatches_formatXS _ x (by decide)

end Sys2Proof
end

