-- ==== Sys2Proof/Laws/Step.lean ====
section
/-! SUPPORT. What raising a fault, an instruction and a step can do, said once. -/

namespace Sys2Proof.Machine

/-- The latch as R126 says it: the response is the record, the latch takes it if it holds none. -/
theorem State.latch_eq (s : State) (r : FaultRecord) :
    s.latch r =
      { s with response := some (.fault r), fault := (match s.fault with | none => some r | some f => some f) } := by
  unfold State.latch; cases s.fault <;> rfl

/-- THE ONE FAULT: raising answers a next state in which exactly what R126 says has happened. -/
theorem raise_spec (ins : Instr) (kind : FaultKind) (bad : Option Nat) (s : State) :
    ∃ t, raise ins kind bad s = .next t ∧ FaultRaised (encode ins) kind bad s t :=
  ⟨_, rfl, State.latch_eq _ _⟩

/-- A checked instruction raises the check's fault or completes. -/
theorem afterCheck_cases (ins : Instr) (check : Option AccessFault) (s t : State) (changed : Bool) :
    (check = none ∧ afterCheck ins check s (complete changed t) = complete changed t) ∨
      ∃ f, check = some f ∧ afterCheck ins check s (complete changed t) = raise ins f.kind (some f.bad) s := by
  cases check with
  | none => exact .inl ⟨rfl, rfl⟩
  | some f => exact .inr ⟨f, rfl, rfl⟩

/-- INVERSION OF AN INSTRUCTION: it completes, with the latch, the configuration and the keys untouched and `changed` true
for CLS and DRW alone, or it raises a fault on the state as it was. -/
theorem exec_cases (i : Instr) (s : State) :
    (∃ changed t, exec i s = complete changed t ∧ (changed = true ↔ i = .cls ∨ ∃ x y n, i = .drw x y n) ∧
      t.fault = s.fault ∧ t.cfg = s.cfg ∧ t.key = s.key) ∨
    ∃ kind bad, exec i s = raise i kind bad s := by
  cases i with
  | ret =>
    simp only [exec, execRet]
    cases h : s.pop with
    | none => exact .inr ⟨_, _, rfl⟩
    | some p =>
      obtain ⟨l, -, hl⟩ := State.pop_eq_some_iff.1 h
      exact .inl ⟨_, _, rfl, by simp, by simp [hl]⟩
  | call nnn =>
    simp only [exec, execCall]
    cases h : s.push s.pc with
    | none => exact .inr ⟨_, _, rfl⟩
    | some t => exact .inl ⟨_, _, rfl, by simp, by simp [(State.push_eq_some_iff.1 h).2]⟩
  | drw x y n =>
    rcases afterCheck_cases (.drw x y n) (checkRead s.i.toNat n.toNat) s (s.drawSprite x y n) true with h | ⟨f, -, h⟩
    · exact .inl ⟨_, _, h.2, by simp, rfl, rfl, rfl⟩
    · exact .inr ⟨_, _, h⟩
  | ldBVx x =>
    simp only [exec, execLdBVx]
    rcases afterCheck_cases (.ldBVx x) _ s _ false with h | ⟨f, -, h⟩
    · exact .inl ⟨_, _, h.2, by simp, rfl, rfl, rfl⟩
    · exact .inr ⟨_, _, h⟩
  | storeRegs x =>
    simp only [exec, execStoreRegs]
    rcases afterCheck_cases (.storeRegs x) _ s _ false with h | ⟨f, -, h⟩
    · exact .inl ⟨_, _, h.2, by simp, rfl, rfl, rfl⟩
    · exact .inr ⟨_, _, h⟩
  | loadRegs x =>
    simp only [exec, execLoadRegs]
    rcases afterCheck_cases (.loadRegs x) _ s _ false with h | ⟨f, -, h⟩
    · exact .inl ⟨_, _, h.2, by simp, rfl, rfl, rfl⟩
    · exact .inr ⟨_, _, h⟩
  | skp x =>
    simp only [exec, execSkp, skipOnKey]
    split
    · exact .inr ⟨_, _, rfl⟩
    · exact .inl ⟨_, _, rfl, by simp, rfl, rfl, rfl⟩
  | sknp x =>
    simp only [exec, execSknp, skipOnKey]
    split
    · exact .inr ⟨_, _, rfl⟩
    · exact .inl ⟨_, _, rfl, by simp, rfl, rfl, rfl⟩
  | ldVxK x =>
    simp only [exec, execLdVxK]
    split <;> exact .inl ⟨_, _, rfl, by simp, rfl, rfl, rfl⟩
  | _ => exact .inl ⟨_, _, rfl, by simp, rfl, rfl, rfl⟩

/-- The fetch inside memory finds the word at PC, and past its end the first address above 0xFFF (R121). -/
theorem State.fetch_cases (s : State) :
    (s.pc.toNat + 1 ≤ 0xFFF ∧ s.fetch = .word s.wordAtPc) ∨
      (0xFFF < s.pc.toNat + 1 ∧ s.fetch = .outOfBounds (max s.pc.toNat 0x1000)) := by
  unfold State.fetch
  by_cases h : 0xFFF < s.pc.toNat + 1
  · exact .inr ⟨h, if_pos h⟩
  · exact .inl ⟨by omega, if_neg h⟩

/-- INVERSION OF A STEP: a fetch fault, the decoded instruction on the advanced state, or an unknown word. -/
theorem step_cases (s : State) :
    (0xFFF < s.pc.toNat + 1 ∧ step s = .next (s.fetchFault (max s.pc.toNat 0x1000))) ∨
    (s.pc.toNat + 1 ≤ 0xFFF ∧ ∃ i, decode s.wordAtPc = .instr i ∧ step s = exec i s.advance) ∨
    (s.pc.toNat + 1 ≤ 0xFFF ∧ ∃ w, decode s.wordAtPc = .unknown w ∧ step s = .next (s.advance.unknownOpcode w)) := by
  unfold step
  rcases s.fetch_cases with ⟨h, hf⟩ | ⟨h, hf⟩
  · right
    rw [hf]
    cases hd : decode s.wordAtPc with
    | instr i => exact .inl ⟨h, i, rfl, by simp only [hd]⟩
    | unknown w => exact .inr ⟨h, w, rfl, by simp only [hd]⟩
  · exact .inl ⟨h, by rw [hf]⟩

/-- The word `placeWord` places is the word the next fetch reads. -/
theorem State.placeWord_spec (s : State) (w : Word) :
    (s.placeWord w).pc.toNat + 1 ≤ 0xFFF ∧ (s.placeWord w).wordAtPc = w := by
  unfold State.placeWord
  set t := if 0xFFF < s.pc.toNat + 1 then s.setPc (BitVec.ofNat 16 progBase) else s with ht
  have hpc : t.pc.toNat + 1 ≤ 0xFFF := by
    rw [ht]; split
    · rw [State.setPc_pc]; decide
    · omega
  refine ⟨hpc, ?_⟩
  have hw : ∀ u : State, u.wordAtPc = bigEndian (u.readMem u.pc.toNat) (u.readMem (u.pc.toNat + 1)) := fun _ => rfl
  rw [hw]
  simp only [State.readMem, State.setMem_cfg, State.setMem_mem, State.setMem_pc, Memory.read_writeAll]
  rw [dif_pos (by simp), dif_pos (by simp)]
  simp [bigEndian_bytes]

end Sys2Proof.Machine
end

