-- ==== Sys2Proof/Tests/Slice0.lean ====
section
/-! SUPPORT. Tests: the checks refuse what they should, every constructor's word decodes, one step of every instruction
against 95_test_vectors.md (the vector's id is in the docstring), and a witness for every statement with hypotheses. -/

namespace Sys2Proof.Tests

open Sys2Proof Sys2Proof.Machine

/-! ### Helpers -/

/-- The reset state with some registers written. -/
def regs (l : List (Nibble × Byte)) : State := l.foldl (fun s p => s.writeV p.1 p.2) State.reset

/-- Bytes put in memory. -/
def bytesAt (a : Nat) (bs : List Byte) (s : State) : State := s.setMem (Memory.writeAll s.cfg.font s.mem a bs)

/-- One TICK on the word `w` placed at PC. -/
def tick (s : State) (w : Nat) : Result := step (s.withFetchWord 16 w)

/-- The result is a next state with the property. -/
def ends (o : Result) (p : State → Bool) : Bool :=
  match o with
  | .next t => p t
  | .fault _ => false
  | .refused _ => false

/-- The pixels that are on, as (row, column). -/
def onPixels (d : Display) : List (Nat × Nat) :=
  d.zipIdx.flatMap fun row => row.1.zipIdx.filterMap fun px => if px.1 then some (row.2, px.2) else none

/-- The response `Fault(kind, 0x200, w, bad)`, the PC after it and the latch. -/
def faulted (kind : FaultKind) (w : Word) (bad : Option Nat) (t : State) : Bool :=
  decide (t.response = some (.fault ⟨kind, 0x200, some w, bad⟩) ∧ t.pc = 0x202 ∧
    t.fault = some ⟨kind, 0x200, some w, bad⟩)

/-- The response `Ok(changed)` and the PC after it. -/
def done (changed : Bool) (pc : Word) (t : State) : Bool :=
  decide (t.response = some (.ok changed) ∧ t.pc = pc ∧ t.fault = none)

/-- A configuration with the shift quirk. -/
def shiftVy (s : State) : State := { s with cfg := { s.cfg with quirkShiftVy := true } }

/-- A configuration with the transfer quirk. -/
def incI (s : State) : State := { s with cfg := { s.cfg with quirkLdstIncI := true } }

/-- A configuration with another font policy. -/
def fontPolicy (p : FontWritePolicy) (s : State) : State := { s with cfg := { s.cfg with fontWritePolicy := p } }

/-- A configuration with another index flag policy. -/
def flagPolicy (p : IndexFlagPolicy) (s : State) : State := { s with cfg := { s.cfg with fx1eVf := p } }

/-- The configuration with policy Mask. -/
def keyMask (s : State) : State := { s with cfg := { s.cfg with keyIndexPolicy := .mask } }

/-- White and black. -/
def whiteOnBlack : Colours := ⟨⟨0xFF, 0xFF, 0xFF, 0xFF⟩, ⟨0x00, 0x00, 0x00, 0xFF⟩⟩

/-! ### Well-formedness: each check refuses an ill-formed term -/

theorem test_config_ok : defaultConfig.wellFormed = true := by decide

theorem test_config_width_zero_refused : Config.wellFormed { defaultConfig with width := 0 } = false := by decide

theorem test_config_height_zero_refused : Config.wellFormed { defaultConfig with height := 0 } = false := by decide

theorem test_colours_ok : whiteOnBlack.wellFormed = true := by decide

theorem test_equal_colours_refused : Colours.wellFormed ⟨whiteOnBlack.fg, whiteOnBlack.fg⟩ = false := by decide

theorem test_largest_image_ok : imageWellFormed (List.replicate 3584 0xAA) = true := by
  unfold imageWellFormed; rw [List.length_replicate]; decide

theorem test_image_one_too_large_refused : imageWellFormed (List.replicate 3585 0xAA) = false := by
  unfold imageWellFormed; rw [List.length_replicate]; decide

/-- No ill-formed instruction can be written (its operand types have the fields' widths); the largest operands pass. -/
theorem test_instr_largest_operands_ok : Instr.wellFormed (.drw 0xF 0xF 0xF) = true ∧ Instr.wellFormed (.rnd 0xF 0xFF) = true ∧
    Instr.wellFormed (.jp 0xFFF) = true := by decide

theorem test_memory_falling_addresses_refused : ¬Memory.wf defaultFont [(0x301, 1), (0x300, 1)] := by decide

theorem test_memory_reset_value_listed_refused : ¬Memory.wf defaultFont [(0x050, 0xF0)] := by decide

theorem test_memory_past_the_end_refused : ¬Memory.wf defaultFont [(0x1000, 1)] := by decide

theorem test_record_without_bad_refused : ¬FaultRecord.wellFormed ⟨.keyIndexOutOfRange, 0x200, some 0xE59E, some 0xF⟩ := by
  simp [FaultRecord.wellFormed]

/-! ### Decoding: a word of every constructor, from the examples of the rules -/

theorem test_decode_flow :
    decode 0x00EE = .instr .ret ∧ decode 0x120C = .instr (.jp 0x20C) ∧ decode 0x2210 = .instr (.call 0x210) ∧
    decode 0xB300 = .instr (.jpV0 0x300) ∧ decode 0x3305 = .instr (.seImm 3 0x05) ∧
    decode 0x4306 = .instr (.sneImm 3 0x06) ∧ decode 0x5120 = .instr (.seReg 1 2) ∧
    decode 0x9120 = .instr (.sneReg 1 2) := by decide

theorem test_decode_alu :
    decode 0x6A9D = .instr (.ldImm 0xA 0x9D) ∧ decode 0x7001 = .instr (.addImm 0 0x01) ∧
    decode 0x8120 = .instr (.ldReg 1 2) ∧ decode 0x8121 = .instr (.orReg 1 2) ∧ decode 0x8122 = .instr (.andReg 1 2) ∧
    decode 0x8123 = .instr (.xorReg 1 2) ∧ decode 0x8124 = .instr (.addReg 1 2) ∧ decode 0x8125 = .instr (.subReg 1 2) ∧
    decode 0x8126 = .instr (.shr 1 2) ∧ decode 0x8127 = .instr (.subnReg 1 2) ∧ decode 0x812E = .instr (.shl 1 2) ∧
    decode 0xC30F = .instr (.rnd 3 0x0F) := by decide

theorem test_decode_display :
    decode 0x00E0 = .instr .cls ∧ decode 0xD125 = .instr (.drw 1 2 5) ∧ decode 0xF029 = .instr (.ldFVx 0) := by decide

theorem test_decode_index_memory :
    decode 0xA300 = .instr (.ldI 0x300) ∧ decode 0xF21E = .instr (.addIVx 2) ∧ decode 0xFA33 = .instr (.ldBVx 0xA) ∧
    decode 0xF255 = .instr (.storeRegs 2) ∧ decode 0xF265 = .instr (.loadRegs 2) := by decide

theorem test_decode_timer_key :
    decode 0xE59E = .instr (.skp 5) ∧ decode 0xE5A1 = .instr (.sknp 5) ∧ decode 0xF307 = .instr (.ldVxDt 3) ∧
    decode 0xF015 = .instr (.ldDtVx 0) ∧ decode 0xF418 = .instr (.ldStVx 4) ∧ decode 0xF30A = .instr (.ldVxK 3) := by
  decide

/-- Bit by bit, one word per format of R93: none, A, XK, XY, XYN, XS. -/
theorem test_decode_bits :
    decode (0b0000000011100000) = .instr .cls ∧ decode (0b0001101010111100) = .instr (.jp 0b101010111100) ∧
    decode (0b0011001100000101) = .instr (.seImm 0b0011 0b00000101) ∧
    decode (0b1000000100101110) = .instr (.shl 0b0001 0b0010) ∧
    decode (0b1101000100100101) = .instr (.drw 0b0001 0b0010 0b0101) ∧
    decode (0b1111110001100101) = .instr (.loadRegs 0b1100) := by decide

/-- T8 to T15: unknown words of every family that has some. -/
theorem test_decode_unknown :
    decode 0x0000 = .unknown 0x0000 ∧ decode 0x0123 = .unknown 0x0123 ∧ decode 0x00E1 = .unknown 0x00E1 ∧
    decode 0x00FF = .unknown 0x00FF ∧ decode 0x5121 = .unknown 0x5121 ∧ decode 0x912F = .unknown 0x912F ∧
    decode 0x8008 = .unknown 0x8008 ∧ decode 0x800F = .unknown 0x800F ∧ decode 0x8ABD = .unknown 0x8ABD ∧
    decode 0xE09F = .unknown 0xE09F ∧ decode 0xE0A2 = .unknown 0xE0A2 ∧ decode 0xE000 = .unknown 0xE000 ∧
    decode 0xF000 = .unknown 0xF000 ∧ decode 0xF0FF = .unknown 0xF0FF ∧ decode 0xF075 = .unknown 0xF075 ∧
    decode 0xF030 = .unknown 0xF030 := by decide

/-- R65, T1: the byte at the lower address is bits 15 to 8. -/
theorem test_decode_bytes_big_endian :
    decodeBytes [0x12, 0x34, 0x56] = some (.instr (.jp 0x234), [0x56]) ∧ encodeBytes (.jp 0x234) = [0x12, 0x34] := by
  decide

/-! ### The fetch -/

/-- T3: the last word of memory runs, and PC moves to 0x1000. -/
theorem test_fetch_last_word : ends (tick { State.reset with pc := 0xFFE } 0x00E0) (done true 0x1000) = true := by decide

/-- T2: an odd PC is legal. -/
theorem test_fetch_odd_pc :
    ends (step (bytesAt 0x201 [0x12, 0x34] { State.reset with pc := 0x201 })) (done false 0x234) = true := by decide

/-- T4. -/
theorem test_fetch_fault : ends (step { State.reset with pc := 0xFFF })
    (fun t => decide (t.response = some (.fault ⟨.outOfBounds, 0xFFF, none, some 0x1000⟩) ∧ t.pc = 0xFFF)) = true := by
  decide

/-- T6. -/
theorem test_fetch_fault_far : ends (step { State.reset with pc := 0x10FE })
    (fun t => decide (t.response = some (.fault ⟨.outOfBounds, 0x10FE, none, some 0x10FE⟩) ∧ t.pc = 0x10FE)) = true := by
  decide

/-- T8. -/
theorem test_unknown : ends (tick State.reset 0x0123)
    (fun t => decide (t.response = some (.unknown 0x0123) ∧ t.pc = 0x202 ∧ t.fault = none)) = true := by decide

/-! ### Control flow -/

/-- F1. -/
theorem test_ret_empty : ends (tick State.reset 0x00EE) (faulted .stackUnderflow 0x00EE none) = true := by decide

/-- F2. -/
theorem test_ret : ends (tick { State.reset with stack := [0x206, 0x212] } 0x00EE)
    (fun t => done false 0x212 t && decide (t.stack = [0x206])) = true := by decide

/-- F5. -/
theorem test_jp : ends (tick State.reset 0x1301) (done false 0x301) = true := by decide

/-- F7. -/
theorem test_call_full : ends (tick { State.reset with stack := List.replicate 16 0x202 } 0x2ABC)
    (fun t => faulted .stackOverflow 0x2ABC none t && decide (t.stack = List.replicate 16 0x202)) = true := by decide

/-- F8, with 0x300 as the 15 entries. -/
theorem test_call : ends (tick { State.reset with stack := List.replicate 15 0x300 } 0x2ABC)
    (fun t => done false 0xABC t && decide (t.stack = List.replicate 15 0x300 ++ [0x202])) = true := by decide

/-- F10. -/
theorem test_jpV0_unmasked : ends (tick (regs [(0, 0xFF)]) 0xBFFF) (done false 0x10FE) = true := by decide

/-- F12, F13. -/
theorem test_seImm : ends (tick (regs [(3, 5)]) 0x3305) (done false 0x204) = true ∧
    ends (tick (regs [(3, 5)]) 0x3306) (done false 0x202) = true := by decide

/-- F14, F15. -/
theorem test_sneImm : ends (tick (regs [(3, 5)]) 0x4305) (done false 0x202) = true ∧
    ends (tick (regs [(3, 5)]) 0x4306) (done false 0x204) = true := by decide

/-- F16, F17. -/
theorem test_seReg : ends (tick (regs [(1, 7), (2, 7)]) 0x5120) (done false 0x204) = true ∧
    ends (tick (regs [(1, 7), (2, 8)]) 0x5120) (done false 0x202) = true := by decide

/-- F19, F20. -/
theorem test_sneReg : ends (tick (regs [(1, 7), (2, 8)]) 0x9120) (done false 0x204) = true ∧
    ends (tick (regs [(1, 7)]) 0x9110) (done false 0x202) = true := by decide

/-! ### Registers and ALU -/

/-- A1. -/
theorem test_ldImm : ends (tick State.reset 0x6A9D) (fun t => decide (t.readV 0xA = 0x9D)) = true := by decide

/-- A3. -/
theorem test_addImm_no_carry : ends (tick (regs [(0, 0xFF)]) 0x7001)
    (fun t => decide (t.readV 0 = 0x00 ∧ t.readV 0xF = 0x00)) = true := by decide

/-- A5. -/
theorem test_ldReg : ends (tick (regs [(2, 0x33)]) 0x8120) (fun t => decide (t.readV 1 = 0x33)) = true := by decide

/-- A6. -/
theorem test_or_keeps_flag : ends (tick (regs [(1, 0xF0), (2, 0x0F), (0xF, 0x55)]) 0x8121)
    (fun t => decide (t.readV 1 = 0xFF ∧ t.readV 0xF = 0x55)) = true := by decide

/-- A7. -/
theorem test_and_keeps_flag : ends (tick (regs [(1, 0xF0), (2, 0x3C), (0xF, 0x55)]) 0x8122)
    (fun t => decide (t.readV 1 = 0x30 ∧ t.readV 0xF = 0x55)) = true := by decide

/-- A8. -/
theorem test_xor_keeps_flag : ends (tick (regs [(1, 0xF0), (2, 0x3C), (0xF, 0x55)]) 0x8123)
    (fun t => decide (t.readV 1 = 0xCC ∧ t.readV 0xF = 0x55)) = true := by decide

/-- A10. -/
theorem test_add_wraps : ends (tick (regs [(1, 0xFF), (2, 0x01)]) 0x8124)
    (fun t => decide (t.readV 1 = 0x00 ∧ t.readV 0xF = 1)) = true := by decide

/-- A13: with X = F the flag is what is left. -/
theorem test_add_into_flag : ends (tick (regs [(1, 0xFF), (0xF, 0x02)]) 0x8F14)
    (fun t => decide (t.readV 0xF = 1)) = true := by decide

/-- A15, A16. -/
theorem test_sub : ends (tick (regs [(1, 0x00), (2, 0x01)]) 0x8125)
      (fun t => decide (t.readV 1 = 0xFF ∧ t.readV 0xF = 0)) = true ∧
    ends (tick (regs [(1, 0x42), (2, 0x42)]) 0x8125) (fun t => decide (t.readV 1 = 0x00 ∧ t.readV 0xF = 1)) = true := by
  decide

/-- A18. -/
theorem test_sub_into_flag : ends (tick (regs [(0xF, 0x05), (1, 0x07)]) 0x8F15)
    (fun t => decide (t.readV 0xF = 0)) = true := by decide

/-- A19, A20. -/
theorem test_subn : ends (tick (regs [(1, 0x01), (2, 0x00)]) 0x8127)
      (fun t => decide (t.readV 1 = 0xFF ∧ t.readV 0xF = 0)) = true ∧
    ends (tick (regs [(1, 0x05), (2, 0x07)]) 0x8127) (fun t => decide (t.readV 1 = 0x02 ∧ t.readV 0xF = 1)) = true := by
  decide

/-- A22, A23. -/
theorem test_shr : ends (tick (regs [(2, 0x03)]) 0x8126) (fun t => decide (t.readV 1 = 0x00 ∧ t.readV 0xF = 0)) = true ∧
    ends (tick (shiftVy (regs [(2, 0x03)])) 0x8126) (fun t => decide (t.readV 1 = 0x01 ∧ t.readV 0xF = 1)) = true := by
  decide

/-- A25, A28. -/
theorem test_shl : ends (tick (regs [(1, 0x81)]) 0x810E) (fun t => decide (t.readV 1 = 0x02 ∧ t.readV 0xF = 1)) = true ∧
    ends (tick (shiftVy (regs [(2, 0x40)])) 0x812E) (fun t => decide (t.readV 1 = 0x80 ∧ t.readV 0xF = 0)) = true := by
  decide

/-- A30: masked by 0, every random byte gives 0. -/
theorem test_rnd_masked_by_zero :
    ∃ t, tick (regs [(3, 0x55)]) 0xC300 = .next t ∧ t.readV 3 = 0x00 ∧ t.pc = 0x202 ∧ t.draws = 1 :=
  ⟨_, rfl, BitVec.and_zero, rfl, rfl⟩

/-- A32: the high nibble is free, the low one is 0. -/
theorem test_rnd_keeps_the_mask : ∃ t, tick State.reset 0xC3F0 = .next t ∧ t.readV 3 = Config.freeByte 0 &&& 0xF0 :=
  ⟨_, rfl, rfl⟩

/-! ### Display -/

/-- D1, from a display with two pixels on. -/
theorem test_cls : ends (tick { State.reset with disp := Display.flip (Display.flip State.reset.disp 0 0) 31 63 } 0x00E0)
    (fun t => done true 0x202 t && decide (onPixels t.disp = [])) = true := by decide

/-- D2, D3: the start wraps, the body is clipped. D12: on to off sets VF. W3, its second draw: (0,0) on to off and (0,1)
off to on, so VF = 1. -/
theorem test_drw :
    ends (tick (bytesAt 0x300 [0x80] { regs [(1, 69), (2, 33)] with i := 0x300 }) 0xD121)
      (fun t => done true 0x202 t && decide (onPixels t.disp = [(1, 5)] ∧ t.readV 0xF = 0)) = true ∧
    ends (tick (bytesAt 0x300 [0xFF] { regs [(1, 62), (2, 0)] with i := 0x300 }) 0xD121)
      (fun t => decide (onPixels t.disp = [(0, 62), (0, 63)] ∧ t.readV 0xF = 0)) = true ∧
    ends (tick (bytesAt 0x300 [0x80] { State.reset with i := 0x300, disp := Display.flip State.reset.disp 0 0 }) 0xD121)
      (fun t => decide (onPixels t.disp = [] ∧ t.readV 0xF = 1)) = true ∧
    ends (tick (bytesAt 0x300 [0xC0] { State.reset with i := 0x300, disp := Display.flip State.reset.disp 0 0 }) 0xD121)
      (fun t => decide (onPixels t.disp = [(0, 1)] ∧ t.readV 0xF = 1)) = true := by decide

/-- D8: clipped rows are checked too. D9: with no row there is no fault. D13: off to on never sets VF. -/
theorem test_drw_edges :
    ends (tick { regs [(2, 31)] with i := 0xFFC } 0xD125)
      (fun t => faulted .outOfBounds 0xD125 (some 0x1000) t && decide (onPixels t.disp = [])) = true ∧
    ends (tick { regs [(0xF, 1)] with i := 0x1005 } 0xD120)
      (fun t => done true 0x202 t && decide (t.readV 0xF = 0)) = true ∧
    ends (tick (bytesAt 0x300 [0x80] { State.reset with i := 0x300, disp := Display.flip State.reset.disp 0 1 }) 0xD121)
      (fun t => decide (onPixels t.disp = [(0, 0), (0, 1)] ∧ t.readV 0xF = 0)) = true := by decide

/-- D16. -/
theorem test_ldF : ends (tick (regs [(0, 0x1A)]) 0xF029) (fun t => decide (t.i = 0x082)) = true := by decide

/-! ### Index and memory -/

/-- M2. -/
theorem test_ldI : ends (tick State.reset 0xAFFF) (fun t => decide (t.i = 0xFFF)) = true := by decide

/-- M4, M6. -/
theorem test_addI : ends (tick { regs [(2, 1)] with i := 0x0FFF } 0xF21E)
      (fun t => decide (t.i = 0x1000 ∧ t.readV 0xF = 1)) = true ∧
    ends (tick (flagPolicy .noFlag { regs [(2, 1), (0xF, 7)] with i := 0x0FFF }) 0xF21E)
      (fun t => decide (t.i = 0x1000 ∧ t.readV 0xF = 7)) = true := by decide

/-- M3, M5. -/
theorem test_addI_below : ends (tick { regs [(2, 1), (0xF, 7)] with i := 0x0FFE } 0xF21E)
      (fun t => decide (t.i = 0x0FFF ∧ t.readV 0xF = 7)) = true ∧
    ends (tick (flagPolicy .setOrClear { regs [(2, 1), (0xF, 7)] with i := 0x0FFE }) 0xF21E)
      (fun t => decide (t.i = 0x0FFF ∧ t.readV 0xF = 0)) = true := by decide

/-- W6, M11. -/
theorem test_bcd : ends (tick { regs [(0xA, 157)] with i := 0x300 } 0xFA33)
      (fun t => decide (t.readMem 0x300 = 1 ∧ t.readMem 0x301 = 5 ∧ t.readMem 0x302 = 7 ∧ t.i = 0x300)) = true ∧
    ends (tick { regs [(0, 123)] with i := 0xFFD } 0xF033)
      (fun t => decide (t.readMem 0xFFD = 1 ∧ t.readMem 0xFFE = 2 ∧ t.readMem 0xFFF = 3)) = true := by decide

/-- M13, M14, M15. -/
theorem test_bcd_font : ends (tick { regs [(0, 123)] with i := 0x04E } 0xF033) (faulted .readOnly 0xF033 (some 0x050)) = true ∧
    ends (tick (fontPolicy .ignore { regs [(0, 123)] with i := 0x04E }) 0xF033)
      (fun t => done false 0x202 t && decide (t.readMem 0x04E = 1 ∧ t.readMem 0x04F = 2 ∧ t.readMem 0x050 = 0xF0)) = true ∧
    ends (tick (fontPolicy .allow { regs [(0, 123)] with i := 0x04E }) 0xF033)
      (fun t => done false 0x202 t && decide (t.readMem 0x04E = 1 ∧ t.readMem 0x050 = 3)) = true := by decide

/-- M17. -/
theorem test_store_quirk : ends (tick (incI { regs [(0, 1), (1, 2), (2, 3)] with i := 0x300 }) 0xF255)
    (fun t => decide (t.readMem 0x300 = 1 ∧ t.readMem 0x302 = 3 ∧ t.readMem 0x303 = 0 ∧ t.i = 0x303)) = true := by decide

/-- M19, M20. -/
theorem test_store_faults : ends (tick { State.reset with i := 0xFF1 } 0xFF55) (faulted .outOfBounds 0xFF55 (some 0x1000)) = true ∧
    ends (tick { State.reset with i := 0x09F } 0xF155) (faulted .readOnly 0xF155 (some 0x09F)) = true := by decide

/-- M22. -/
theorem test_load : ends (tick (bytesAt 0x300 [1, 5, 7] { regs [(3, 0x99)] with i := 0x300 }) 0xF265)
    (fun t => decide (t.readV 0 = 1 ∧ t.readV 1 = 5 ∧ t.readV 2 = 7 ∧ t.readV 3 = 0x99 ∧ t.i = 0x300)) = true := by decide

/-- M25. -/
theorem test_load_fault : ends (tick (incI { regs [(0, 9)] with i := 0xFFF }) 0xF165)
    (fun t => faulted .outOfBounds 0xF165 (some 0x1000) t && decide (t.readV 0 = 9 ∧ t.i = 0xFFF)) = true := by decide

/-! ### Timers and keys -/

/-- K1, K6. -/
theorem test_skp : ends (tick ((regs [(5, 7)]).setKey 7 true) 0xE59E) (done false 0x204) = true ∧
    ends (tick (keyMask ((regs [(5, 0x10)]).setKey 0 true)) 0xE59E) (done false 0x204) = true := by decide

/-- K5. -/
theorem test_skp_fault : ends (tick (regs [(5, 0x10)]) 0xE59E) (faulted .keyIndexOutOfRange 0xE59E (some 0x10)) = true := by
  decide

/-- K3, K4. -/
theorem test_sknp : ends (tick (regs [(5, 7)]) 0xE5A1) (done false 0x204) = true ∧
    ends (tick ((regs [(5, 7)]).setKey 7 true) 0xE5A1) (done false 0x202) = true := by decide

/-- K7. -/
theorem test_sknp_fault : ends (tick (regs [(5, 0xFF)]) 0xE5A1) (faulted .keyIndexOutOfRange 0xE5A1 (some 0xFF)) = true := by
  decide

/-- K8. -/
theorem test_ldVxDt : ends (tick { State.reset with dt := 0x3C } 0xF307)
    (fun t => decide (t.readV 3 = 0x3C ∧ t.dt = 0x3C)) = true := by decide

/-- K9. -/
theorem test_ldDt : ends (tick (regs [(0, 7)]) 0xF015) (fun t => decide (t.dt = 7)) = true := by decide

/-- K10. -/
theorem test_ldSt : ends (tick (regs [(4, 0x10)]) 0xF418) (fun t => decide (t.st = 0x10)) = true := by decide

/-- K11. -/
theorem test_wait_lowest_key : ends (tick ((State.reset.setKey 0xC true).setKey 0xB true) 0xF30A)
    (fun t => done false 0x202 t && decide (t.readV 3 = 0x0B)) = true := by decide

/-- K12. -/
theorem test_wait_no_key : ends (tick (regs [(3, 9)]) 0xF30A)
    (fun t => done false 0x200 t && decide (t.readV 3 = 9)) = true := by decide

/-! ### Host operations -/

/-- L2, shortened: memory past the image, the registers and the stack stay. -/
theorem test_load_image :
    ((bytesAt 0x203 [0xEE] { regs [(0, 5)] with pc := 0x300, stack := [0x202] }).hostLoad [0x12, 0x00]).2.readMem 0x200 = 0x12 ∧
    ((bytesAt 0x203 [0xEE] { regs [(0, 5)] with pc := 0x300, stack := [0x202] }).hostLoad [0x12, 0x00]).2.readMem 0x203 = 0xEE ∧
    ((bytesAt 0x203 [0xEE] { regs [(0, 5)] with pc := 0x300, stack := [0x202] }).hostLoad [0x12, 0x00]).2.pc = 0x200 := by
  decide

/-- W9, K15. -/
theorem test_timer_floor : countDown 0x01 = 0x00 ∧ countDown 0x00 = 0x00 ∧ countDown 0xFF = 0xFE := by decide

/-- L8, on the four bytes at 264. -/
theorem test_framebuffer :
    ((({ State.reset with disp := Display.flip State.reset.disp 1 2 } : State).readFramebuffer whiteOnBlack).drop 260).take 8 =
      [0x00, 0x00, 0x00, 0xFF, 0xFF, 0xFF, 0xFF, 0xFF] := by decide

/-! ### Witnesses: for every statement with hypotheses, values that meet them -/

/-- DecodedInstructionReencodesToItsWord; UnknownWordsAreExactlyTheListedOnes, at the edges of its clauses. -/
theorem test_witness_decode :
    decode 0x8124 = .instr (.addReg 1 2) ∧ decode 0x0FFF = .unknown 0x0FFF ∧ decode 0x00E1 = .unknown 0x00E1 ∧
    decode 0x5001 = .unknown 0x5001 ∧ decode 0x8008 = .unknown 0x8008 ∧ decode 0x800D = .unknown 0x800D ∧
    decode 0x800F = .unknown 0x800F ∧ decode 0x900F = .unknown 0x900F ∧ decode 0xE09D = .unknown 0xE09D ∧
    decode 0xF066 = .unknown 0xF066 ∧ decode 0x1000 = .instr (.jp 0) := by decide

/-- StepRunsTheDecodedInstruction, PcAfterEachTick: an instruction at the last PC that can fetch. -/
theorem test_witness_instruction_at_the_end :
    (bytesAt 0xFFE [0x81, 0x24] { State.reset with pc := 0xFFE }).pc.toNat + 1 ≤ 0xFFF ∧
    decode (bytesAt 0xFFE [0x81, 0x24] { State.reset with pc := 0xFFE }).wordAtPc = .instr (.addReg 1 2) := by decide

/-- UnknownWordOnlyAdvancesPc, FaultKindsHaveTheirCauses, PcAfterEachTick: an unknown word there. -/
theorem test_witness_unknown_at_the_end :
    ({ State.reset with pc := 0xFFE } : State).pc.toNat + 1 ≤ 0xFFF ∧
    decode ({ State.reset with pc := 0xFFE } : State).wordAtPc =
      .unknown ({ State.reset with pc := 0xFFE } : State).wordAtPc := by decide

/-- FetchPastTheEndFaults, PcAfterEachTick: the two sides of the fetch's bound, and the highest PC. -/
theorem test_witness_fetch_bound :
    ({ State.reset with pc := 0xFFE } : State).pc.toNat + 1 ≤ 0xFFF ∧
    0xFFF < ({ State.reset with pc := 0xFFF } : State).pc.toNat + 1 ∧
    0xFFF < ({ State.reset with pc := 0xFFFF } : State).pc.toNat + 1 := by decide

/-- PlacedWordIsTheNextInstruction. -/
theorem test_witness_placed_word : decodeTableWord 16 0xD125 = some (.drw 1 2 5) := by decide

/-- EveryTickCompletesWithAResponse: FX0A at PC and no key pressed. -/
theorem test_witness_wait : (bytesAt 0x200 [0xF3, 0x0A] State.reset).pc.toNat + 1 ≤ 0xFFF ∧
    decode (bytesAt 0x200 [0xF3, 0x0A] State.reset).wordAtPc = .instr (.ldVxK 3) ∧
    ∀ k : Nibble, (bytesAt 0x200 [0xF3, 0x0A] State.reset).keyPressed k = false := by decide

/-- FaultsArePrecise: a fault in execute and a fault in the fetch. -/
theorem test_witness_step_faults :
    (∃ t r, step (bytesAt 0x200 [0x00, 0xEE] State.reset) = .next t ∧ t.response = some (.fault r)) ∧
    ∃ t r, step { State.reset with pc := 0xFFF } = .next t ∧ t.response = some (.fault r) :=
  ⟨⟨_, _, rfl, rfl⟩, _, _, rfl, rfl⟩

/-- FaultKindsHaveTheirCauses: StackOverflow at 16 entries and StackUnderflow. -/
theorem test_witness_stack_faults :
    (∃ t r, ({ State.reset with stack := List.replicate 16 0x300 } : State).stack.length ≤ 16 ∧
      exec (.call 0x300) { State.reset with stack := List.replicate 16 0x300 } = .next t ∧
      t.response = some (.fault r) ∧ r.kind = .stackOverflow) ∧
    ∃ t r, exec .ret State.reset = .next t ∧ t.response = some (.fault r) ∧ r.kind = .stackUnderflow :=
  ⟨⟨_, _, by decide, rfl, rfl, rfl⟩, _, _, rfl, rfl, rfl⟩

/-- FaultKindsHaveTheirCauses: OutOfBounds by one byte, KeyIndexOutOfRange at 0x10, ReadOnly at the font's last byte. -/
theorem test_witness_other_faults :
    (∃ t r, exec (.drw 0 0 1) { State.reset with i := 0x1000 } = .next t ∧ t.response = some (.fault r) ∧
      r.kind = .outOfBounds) ∧
    (∃ t r, exec (.skp 5) (regs [(5, 0x10)]) = .next t ∧ t.response = some (.fault r) ∧ r.kind = .keyIndexOutOfRange) ∧
    ∃ t r, exec (.storeRegs 0) { State.reset with i := 0x09F } = .next t ∧ t.response = some (.fault r) ∧
      r.kind = .readOnly :=
  ⟨⟨_, _, rfl, rfl, rfl⟩, ⟨_, _, rfl, rfl, rfl⟩, _, _, rfl, rfl, rfl⟩

/-- FaultKindsHaveTheirCauses, LoadCopiesTheImageAndSetsPc: the largest image and one byte more. -/
theorem test_witness_image_sizes :
    (List.replicate 3584 (0xAA : Byte)).length ≤ 4096 - 0x200 ∧ 3584 < (List.replicate 3585 (0xAA : Byte)).length := by
  rw [List.length_replicate, List.length_replicate]; decide

/-- A record for the latch. -/
def someRecord : FaultRecord := ⟨.stackOverflow, 0x200, some 0x2200, none⟩

/-- LatchKeepsTheFirstFault: a first fault, and an operation on a state whose latch is set. -/
theorem test_witness_latch :
    (∃ t, step { State.reset with pc := 0xFFF } = .next t ∧ ({ State.reset with pc := 0xFFF } : State).fault = none) ∧
    ∃ p t, perform whiteOnBlack .tickTimers { State.reset with fault := some someRecord } = .next (p, t) ∧
      HostOp.tickTimers ≠ .reset ∧ ({ State.reset with fault := some someRecord } : State).fault = some someRecord :=
  ⟨⟨_, rfl, rfl⟩, _, _, rfl, by decide, rfl⟩

/-- The invariant holds at reset and with a record in the latch. -/
theorem test_inv_reset : State.reset.Inv :=
  ⟨by decide, Memory.wf_nil _, by decide, Display.shaped_blank _, fun _ h => by cases h⟩

/-- StepKeepsTheInvariant, HostOperationsKeepTheInvariant. -/
theorem test_witness_invariant :
    (∃ t, State.reset.Inv ∧ step State.reset = .next t) ∧
    ∃ p t, State.reset.Inv ∧ perform whiteOnBlack (.load [0x12, 0x00]) State.reset = .next (p, t) :=
  ⟨⟨_, test_inv_reset, rfl⟩, _, _, test_inv_reset, rfl⟩

/-- ResetMeetsTheInvariant: the smallest display is a well-formed configuration. -/
theorem test_witness_config : Config.wellFormed { defaultConfig with width := 1, height := 1 } = true := by decide

/-- NoInstructionOverwritesTheFont: under policies Fault and Ignore. -/
theorem test_witness_font :
    (∃ t, State.reset.cfg.fontWritePolicy ≠ .allow ∧ State.reset.FontIntact ∧ step State.reset = .next t) ∧
    ∃ t, (fontPolicy .ignore State.reset).cfg.fontWritePolicy ≠ .allow ∧ (fontPolicy .ignore State.reset).FontIntact ∧
      step (fontPolicy .ignore State.reset) = .next t := by
  have h : ∀ s : State, s.mem = [] → s.FontIntact := by
    intro s hs a ha; simp [State.readMem, hs, Memory.unlisted, ha]
  exact ⟨⟨_, by decide, h _ rfl, rfl⟩, _, by decide, h _ rfl, rfl⟩

/-- ResetLeavesTheListedValues: the edges of the font range and of memory, and the last pixel. -/
theorem test_witness_reset :
    (0x04F < 0x1000 ∧ ¬(0x050 ≤ 0x04F ∧ 0x04F < 0x0A0)) ∧ (0x050 ≤ 0x050 ∧ 0x09F < 0x0A0) ∧ ¬0x0A0 < 0x0A0 ∧
    State.reset.readMem 0x04F = 0x00 ∧ State.reset.readMem 0x050 = 0xF0 ∧ State.reset.readMem 0x09F = 0x80 ∧
    State.reset.readMem 0x0A0 = 0x00 ∧ State.reset.readMem 0xFFF = 0x00 ∧ 31 < State.reset.cfg.height ∧
    63 < State.reset.cfg.width := by decide

/-- UnloadedMachineRunsToTheEndOfMemory: the last unknown word and the first fault. -/
theorem test_witness_run : (0 ≤ 1792 ∧ 1792 ≤ 1792) ∧ 1792 < 1793 := by decide

/-- OnlyDestinationsAndFlagChange: a register that is no destination, and VF where the flag is not written. -/
theorem test_witness_destinations :
    (∃ t, exec (.addReg 1 2) State.reset = .next t ∧ (2 : Nibble) ∉ destinations (.addReg 1 2) ∧
      ¬((2 : Nibble) = VF ∧ writesFlag State.reset.cfg (.addReg 1 2) = true)) ∧
    ∃ t, exec (.orReg 1 2) State.reset = .next t ∧ VF ∉ destinations (.orReg 1 2) ∧
      ¬(VF = VF ∧ writesFlag State.reset.cfg (.orReg 1 2) = true) :=
  ⟨⟨_, rfl, by decide, by decide⟩, _, rfl, by decide, by decide⟩

/-- OnlyTheNamedInstructionsChangeEachPart: a change of the stack, of each timer, of I and of the draws. -/
theorem test_witness_changes :
    (∃ t, exec (.call 0x300) State.reset = .next t ∧ t.stack ≠ State.reset.stack) ∧
    (∃ t, exec (.ldDtVx 1) (regs [(1, 5)]) = .next t ∧ t.dt ≠ (regs [(1, 5)]).dt) ∧
    (∃ t, exec (.ldStVx 1) (regs [(1, 5)]) = .next t ∧ t.st ≠ (regs [(1, 5)]).st) ∧
    (∃ t, exec (.ldI 0x300) State.reset = .next t ∧ t.i ≠ State.reset.i) ∧
    ∃ t, exec (.rnd 1 0xFF) State.reset = .next t ∧ t.draws ≠ State.reset.draws :=
  ⟨⟨_, rfl, by decide⟩, ⟨_, rfl, by decide⟩, ⟨_, rfl, by decide⟩, ⟨_, rfl, by decide⟩, _, rfl, Nat.one_ne_zero⟩

/-- OnlyTheNamedInstructionsChangeEachPart: a change of the display, of memory, and of I by a transfer under the quirk. -/
theorem test_witness_more_changes :
    (∃ t, exec (.drw 0 0 1) { State.reset with i := 0x050 } = .next t ∧ onPixels t.disp ≠ onPixels State.reset.disp) ∧
    (∃ t, exec (.storeRegs 1) { regs [(1, 5)] with i := 0x300 } = .next t ∧
      t.mem ≠ ({ regs [(1, 5)] with i := 0x300 } : State).mem) ∧
    ∃ t, exec (.loadRegs 1) (incI { State.reset with i := 0x300 }) = .next t ∧
      t.i ≠ (incI { State.reset with i := 0x300 }).i :=
  ⟨⟨_, rfl, by decide⟩, ⟨_, rfl, by decide⟩, _, rfl, by decide⟩

/-- ReturnPopsTheTopAddress, CallPushesThePostFetchPc, ReturnUndoesCall, FaultKindsHaveTheirCauses: the edges of the stack. -/
theorem test_witness_stack :
    ({ State.reset with stack := [0x206] } : State).stack = [] ++ [0x206] ∧ State.reset.stack = [] ∧
    ({ State.reset with stack := List.replicate 15 0x300 } : State).stack.length < 16 ∧
    ({ State.reset with stack := List.replicate 16 0x300 } : State).stack.length = 16 := by decide

/-- CompareSkipsMovePcByTwo (`n`), the ALU statements (`x`), DrawingTwiceRestoresTheDisplay (`x`, `y`), SetKeyWritesOneKey
(`j`, `k`). -/
theorem test_witness_operands : (1 : Nibble) ≠ 0 ∧ (0xE : Nibble) ≠ 0xF ∧ (3 : Nibble) ≠ 2 := by decide

/-- RandomByteIsMasked: a 0 bit of the mask. -/
theorem test_witness_mask : (0x0F : Byte).getLsbD 7 = false := by decide

/-- DrawXorsTheClippedSprite, DrawingTwiceRestoresTheDisplay, ClearTurnsEveryPixelOff, FramebufferHoldsTheColours: a display
of the right shape, a pixel of it, and the two sides of the bound, I + N - 1 = 0xFFF and 0x1000. -/
theorem test_witness_draw :
    Display.shaped State.reset.cfg State.reset.disp ∧ State.reset.cfg.wellFormed = true ∧
    (31 < State.reset.cfg.height ∧ 63 < State.reset.cfg.width) ∧ (0xFF1 : Word).toNat + (0xF : Nibble).toNat - 1 ≤ 0xFFF ∧
    ((1 : Nibble) ≠ 0 ∧ 0xFFF < (0x1000 : Word).toNat + (1 : Nibble).toNat - 1) :=
  ⟨Display.shaped_blank _, by decide, by decide, by decide, by decide⟩

/-- SecondDrawOfAnOpaqueSpriteAlwaysCollides: its hypotheses are met by the first row of the glyph for 0. -/
theorem test_witness_second_draw : ∃ t u : State, ({ State.reset with i := 0x050 } : State).Inv ∧
    ({ State.reset with i := 0x050 } : State).i.toNat + (1 : Nibble).toNat ≤ 0x1000 ∧
    (∃ r c, r < State.reset.cfg.height ∧ c < State.reset.cfg.width ∧
      State.spriteBit { State.reset with i := 0x050 } 0 0 1 r c = true) ∧
    exec (.drw 0 1 1) { State.reset with i := 0x050 } = .next t ∧
    exec (.drw 0 1 1) { t with pc := t.pc + 2 } = .next u :=
  ⟨_, _, ⟨by decide, Memory.wf_nil _, by decide, Display.shaped_blank _, fun _ h => by cases h⟩, by decide,
    ⟨0, 0, by decide, by decide, by decide⟩, rfl, rfl⟩

/-- BcdStoresThreeDigits: the highest base that fits, the highest below the font, the lowest above it, the first past the
end, and the two ends of the bases that hit the font. -/
theorem test_witness_bcd :
    (0xFFD + 2 ≤ 0xFFF ∧ (0xFFD + 2 < 0x050 ∨ 0x09F < 0xFFD)) ∧ (0x04D + 2 ≤ 0xFFF ∧ 0x04D + 2 < 0x050) ∧
    (0x0A0 + 2 ≤ 0xFFF ∧ 0x09F < 0x0A0) ∧ 0xFFF < 0xFFE + 2 ∧
    (State.reset.cfg.fontWritePolicy = .fault ∧ 0x04E + 2 ≤ 0xFFF ∧ 0x050 ≤ 0x04E + 2 ∧ 0x04E ≤ 0x09F) ∧
    (0x050 ≤ 0x09F + 2 ∧ 0x09F ≤ 0x09F) ∧ (fontPolicy .ignore State.reset).cfg.fontWritePolicy = .ignore := by decide

/-- StoreRegistersWritesV0ToVX, LoadRegistersReadsV0ToVX: the same edges for X = 1 and X = F. -/
theorem test_witness_transfers :
    (0xFF0 + (0xF : Nibble).toNat ≤ 0xFFF ∧ (0xF : Nibble).toNat ≤ (0xF : Nibble).toNat) ∧
    0xFFF < 0xFF1 + (0xF : Nibble).toNat ∧ 0x04E + (1 : Nibble).toNat < 0x050 ∧
    (State.reset.cfg.fontWritePolicy = .fault ∧ 0x050 ≤ 0x04F + (1 : Nibble).toNat ∧ 0x04F ≤ 0x09F) ∧
    (fontPolicy .ignore State.reset).cfg.fontWritePolicy = .ignore := by decide

/-- IndexMovesOnlyUnderItsQuirk: a transfer that completes, under the quirk, and one that faults. -/
theorem test_witness_index_quirk :
    (∃ t, exec (.storeRegs 1) (incI { State.reset with i := 0x300 }) = .next t ∧ t.response = some (.ok false) ∧
      (incI { State.reset with i := 0x300 }).cfg.quirkLdstIncI = true) ∧
    ∃ t r, exec (.loadRegs 1) { State.reset with i := 0xFFF } = .next t ∧ t.response = some (.fault r) :=
  ⟨⟨_, rfl, rfl, rfl⟩, _, _, rfl, rfl⟩

/-- KeySkipsFollowTheKeyLevel: the highest index that is a key, the lowest that is not under each policy. -/
theorem test_witness_key_index :
    ((0xF : Nibble).toNat = ((regs [(5, 0xF)]).readV 5).toNat % 16 ∧ ((regs [(5, 0xF)]).readV 5).toNat ≤ 0xF) ∧
    ((0 : Nibble).toNat = ((keyMask (regs [(5, 0x10)])).readV 5).toNat % 16 ∧
      (keyMask (regs [(5, 0x10)])).cfg.keyIndexPolicy = .mask) ∧
    (0xF < ((regs [(5, 0x10)]).readV 5).toNat ∧ (regs [(5, 0x10)]).cfg.keyIndexPolicy = .fault) := by decide

/-- WaitForKeyTakesTheLowestKey: the highest key alone, and no key. -/
theorem test_witness_keys :
    ((State.reset.setKey 0xF true).keyPressed 0xF = true ∧
      ∀ j : Nibble, j.toNat < (0xF : Nibble).toNat → (State.reset.setKey 0xF true).keyPressed j = false) ∧
    ∀ k : Nibble, State.reset.keyPressed k = false := by decide

end Sys2Proof.Tests
end

/-! The invariant `State.Inv` under the updates of the state, the instructions and the step. -/

namespace Sys2Proof.Machine

/-! ### The invariant under the updates of the state -/

section
variable {s t : State}

/-- The invariant speaks of five parts of the state; an update of any other part keeps it. -/
theorem State.Inv.of_same_parts (h : s.Inv) (hcfg : t.cfg = s.cfg) (hmem : t.mem = s.mem)
    (hstack : t.stack = s.stack) (hdisp : t.disp = s.disp) (hfault : t.fault = s.fault) : t.Inv where
  config  := by rw [hcfg]; exact h.config
  memory  := by rw [hcfg, hmem]; exact h.memory
  stack   := by rw [hstack]; exact h.stack
  display := by rw [hcfg, hdisp]; exact h.display
  latch   := by rw [hfault]; exact h.latch

theorem State.Inv.after_setPc (h : s.Inv) (w : Word) : (s.setPc w).Inv := h.of_same_parts rfl rfl rfl rfl rfl

theorem State.Inv.after_setStack (h : s.Inv) {l : List Word} (hl : l.length ≤ stackCap) : (s.setStack l).Inv :=
  { h with stack := hl }

theorem State.Inv.after_setDisp (h : s.Inv) {d : Display} (hd : Display.shaped s.cfg d) : (s.setDisp d).Inv :=
  { h with display := hd }

theorem State.Inv.after_setMem (h : s.Inv) {m : Memory} (hm : Memory.wf s.cfg.font m) : (s.setMem m).Inv :=
  { h with memory := hm }

theorem State.Inv.after_storeBytes (h : s.Inv) {a : Nat} {bs : List Byte} (hin : a + bs.length ≤ memSize) :
    (s.storeBytes a bs).Inv :=
  h.after_setMem (Memory.wf_storeAll _ h.memory hin)

/-- The latch holds its old record or the new one, so it keeps the invariant for a well-formed record. -/
theorem State.Inv.after_latch (h : s.Inv) {r : FaultRecord} (hr : r.wellFormed) : (s.latch r).Inv where
  config  := h.config
  memory  := h.memory
  stack   := h.stack
  display := h.display
  latch r' hr' := by
    rcases s.latch_fault_cases r with ⟨-, hnew⟩ | ⟨f, hold, hkept⟩
    · obtain rfl : r = r' := Option.some.inj (hnew.symm.trans hr')
      exact hr
    · exact h.latch r' (hold.trans (hkept.symm.trans hr'))

end

/-! ### The records of the faults are well formed (R301) -/

theorem FaultRecord.wellFormed_outOfBounds {addr : Word} {word : Option Word} {a : Nat} (ha : 0xFFF < a) :
    FaultRecord.wellFormed ⟨.outOfBounds, addr, word, some a⟩ :=
  ⟨a, rfl, ha⟩

theorem checkRead_record_wellFormed {base n : Nat} {f : AccessFault} (h : checkRead base n = some f) (addr w : Word) :
    FaultRecord.wellFormed ⟨f.kind, addr, some w, some f.bad⟩ := by
  obtain ⟨-, rfl⟩ := checkRead_eq_some_iff.1 h
  exact FaultRecord.wellFormed_outOfBounds (lt_max_of_lt_right (by decide))

theorem checkWrite_record_wellFormed {policy : FontWritePolicy} {base n : Nat} {f : AccessFault}
    (h : checkWrite policy base n = some f) (addr w : Word) :
    FaultRecord.wellFormed ⟨f.kind, addr, some w, some f.bad⟩ := by
  rcases checkWrite_eq_some_iff.1 h with hread | ⟨-, -, p, hp, rfl⟩
  · exact checkRead_record_wellFormed hread addr w
  · obtain ⟨⟨-, -, hfont⟩, -⟩ := firstFontHit_eq_some_iff.1 hp
    exact ⟨⟨p, rfl, hfont⟩, Option.some_ne_none w⟩

/-- `resolve_key` fails for an index above 0xF under policy Fault, and for no other (R260). -/
theorem resolveKey_eq_none_iff {policy : KeyIndexPolicy} {v : Byte} :
    resolveKey policy v = none ↔ 0xF < v.toNat ∧ policy = .fault := by
  unfold resolveKey
  split
  · simp only [reduceCtorEq, false_iff]; omega
  · cases policy <;> simp; omega

/-! ### The invariant under what an instruction answers -/

/-- The state a result answers, if it answers one, meets the invariant. -/
def AnswersInv (r : Result) : Prop := ∀ t, r = .next t → t.Inv

theorem answersInv_next {s : State} (h : s.Inv) : AnswersInv (.next s) := by
  rintro t ⟨⟩; exact h

section
variable {s : State}

theorem answersInv_complete {changed : Bool} (h : s.Inv) : AnswersInv (complete changed s) :=
  answersInv_next (h.of_same_parts rfl rfl rfl rfl rfl)

theorem answersInv_raise {ins : Instr} {kind : FaultKind} {bad : Option Nat} (h : s.Inv)
    (hr : FaultRecord.wellFormed ⟨kind, s.pc - 2, some (encode ins), bad⟩) : AnswersInv (raise ins kind bad s) :=
  answersInv_next (h.after_latch hr)

theorem answersInv_afterCheck {ins : Instr} {check : Option AccessFault} {rest : Result} (h : s.Inv)
    (hrecord : ∀ {f}, check = some f → ∀ addr w, FaultRecord.wellFormed ⟨f.kind, addr, some w, some f.bad⟩)
    (hrest : check = none → AnswersInv rest) : AnswersInv (afterCheck ins check s rest) := by
  cases check with
  | none => exact hrest rfl
  | some f => exact answersInv_raise h (hrecord rfl _ _)

theorem answersInv_skipOnKey (h : s.Inv) (ins : Instr) (x : Nibble) (wanted : Bool) :
    AnswersInv (skipOnKey ins x wanted s) := by
  unfold skipOnKey
  split
  case h_1 hkey =>
    have hv := (resolveKey_eq_none_iff.1 hkey).1
    exact answersInv_raise h ⟨⟨_, rfl, hv, (s.readV x).isLt⟩, Option.some_ne_none _⟩
  case h_2 => exact answersInv_complete (h.after_setPc _)

theorem answersInv_execRet (h : s.Inv) : AnswersInv (execRet s) := by
  unfold execRet
  split
  case h_1 => exact answersInv_raise h ⟨rfl, Option.some_ne_none _⟩
  case h_2 w t hpop =>
    obtain ⟨l, hl, rfl⟩ := State.pop_eq_some_iff.1 hpop
    have hcap := h.stack
    rw [hl, List.length_append] at hcap
    exact answersInv_complete ((h.after_setStack (le_of_add_le_left hcap)).after_setPc w)

theorem answersInv_execCall (h : s.Inv) (nnn : Addr12) : AnswersInv (execCall nnn s) := by
  unfold execCall
  split
  case h_1 => exact answersInv_raise h ⟨rfl, Option.some_ne_none _⟩
  case h_2 t hpush =>
    obtain ⟨hroom, rfl⟩ := State.push_eq_some_iff.1 hpush
    have hcap : (s.stack ++ [s.pc]).length ≤ stackCap := by rw [List.length_append]; exact hroom
    exact answersInv_complete ((h.after_setStack hcap).after_setPc _)

theorem answersInv_execCls (h : s.Inv) : AnswersInv (execCls s) :=
  answersInv_complete (h.after_setDisp (Display.shaped_blank s.cfg))

theorem answersInv_execDrw (h : s.Inv) (x y n : Nibble) : AnswersInv (execDrw x y n s) :=
  answersInv_afterCheck h checkRead_record_wellFormed fun _ =>
    answersInv_complete <|
      (h.after_setDisp (State.blitSprite_spec h.display).1).of_same_parts rfl rfl rfl rfl rfl

/-- A write that passes its check stays inside memory. -/
theorem le_memSize_of_checkWrite {policy : FontWritePolicy} {base n : Nat} (hn : 0 < n)
    (h : checkWrite policy base n = none) : base + n ≤ memSize :=
  (checkWrite_eq_none_iff.1 h).1.resolve_left hn.ne'

theorem answersInv_execLdBVx (h : s.Inv) (x : Nibble) : AnswersInv (execLdBVx x s) :=
  answersInv_afterCheck h checkWrite_record_wellFormed fun hcheck =>
    have hin : s.i.toNat + 3 ≤ memSize := le_memSize_of_checkWrite (by decide) hcheck
    answersInv_complete (h.after_storeBytes hin)

theorem answersInv_execStoreRegs (h : s.Inv) (x : Nibble) : AnswersInv (execStoreRegs x s) :=
  answersInv_afterCheck h checkWrite_record_wellFormed fun hcheck => by
    have hin : s.i.toNat + (s.registersUpTo x).length ≤ memSize := by
      simpa only [State.registersUpTo, List.length_map, List.length_range] using
        le_memSize_of_checkWrite (Nat.succ_pos _) hcheck
    exact answersInv_complete ((h.after_storeBytes hin).of_same_parts rfl rfl rfl rfl rfl)

theorem answersInv_execLoadRegs (h : s.Inv) (x : Nibble) : AnswersInv (execLoadRegs x s) :=
  answersInv_afterCheck h checkRead_record_wellFormed fun _ =>
    answersInv_complete (h.of_same_parts rfl rfl rfl rfl rfl)

theorem answersInv_execLdVxK (h : s.Inv) (x : Nibble) : AnswersInv (execLdVxK x s) := by
  unfold execLdVxK
  split <;> exact answersInv_complete (h.of_same_parts rfl rfl rfl rfl rfl)

/-- Every instruction keeps the invariant. The named ones touch the stack, the display or memory, may fault, or branch;
every other one completes and touches no part the invariant speaks of. -/
theorem answersInv_exec (h : s.Inv) (i : Instr) : AnswersInv (exec i s) := by
  cases i with
  | cls => exact answersInv_execCls h
  | ret => exact answersInv_execRet h
  | call nnn => exact answersInv_execCall h nnn
  | drw x y n => exact answersInv_execDrw h x y n
  | skp x => exact answersInv_skipOnKey h _ x true
  | sknp x => exact answersInv_skipOnKey h _ x false
  | ldVxK x => exact answersInv_execLdVxK h x
  | ldBVx x => exact answersInv_execLdBVx h x
  | storeRegs x => exact answersInv_execStoreRegs h x
  | loadRegs x => exact answersInv_execLoadRegs h x
  | _ => exact answersInv_complete (h.of_same_parts rfl rfl rfl rfl rfl)

theorem answersInv_step (h : s.Inv) : AnswersInv (step s) := by
  rcases step_cases s with ⟨-, hstep⟩ | ⟨-, i, -, hstep⟩ | ⟨-, w, -, hstep⟩ <;> rw [hstep]
  · have hbad : 0xFFF < max s.pc.toNat 0x1000 := lt_max_of_lt_right (by decide)
    exact answersInv_next (h.after_latch (FaultRecord.wellFormed_outOfBounds hbad))
  · exact answersInv_exec (h.after_setPc _) i
  · exact answersInv_next (h.of_same_parts rfl rfl rfl rfl rfl)

end

/-- Settles O16: a step is a fetch fault, an instruction or an unknown word, and each keeps the invariant. -/
theorem stepKeepsTheInvariant : Obligations.StepKeepsTheInvariant :=
  fun _ t h hstep => answersInv_step h t hstep

end Sys2Proof.Machine

/-! The host's operations (10_state.md R50): the invariant and the latch after each. -/

namespace Sys2Proof.Machine

/-- INVERSION OF A HOST OPERATION: RESET, a TICK, a LOAD that fits, TICK_TIMERS, SET_KEY, or one that leaves the state as
it is (the read-outs and a LOAD that is too large). -/
theorem perform_cases {c : Colours} {op : HostOp} {s t : State} {p : HostResponse} (h : perform c op s = .next (p, t)) :
    (op = .reset ∧ t = s.hostReset) ∨ (op = .tick ∧ step s = .next t) ∨
    (∃ bytes, op = .load bytes ∧ imageWellFormed bytes = true ∧ t = s.loadImage bytes) ∨
    (op = .tickTimers ∧ t = s.hostTickTimers) ∨ (∃ k pressed, op = .setKey k pressed ∧ t = s.setKey k pressed) ∨
    t = s := by
  cases op with
  | reset => cases h; exact .inl ⟨rfl, rfl⟩
  | tick =>
    simp only [perform] at h
    cases hstep : step s with
    | next u => rw [hstep] at h; cases h; exact .inr (.inl ⟨rfl, rfl⟩)
    | fault f => rw [hstep] at h; cases h
    | refused e => rw [hstep] at h; cases h
  | load bytes =>
    simp only [perform, State.hostLoad] at h
    split at h
    · next hfits => cases h; exact .inr (.inr (.inl ⟨bytes, rfl, hfits, rfl⟩))
    · cases h; exact .inr (.inr (.inr (.inr (.inr rfl))))
  | tickTimers => cases h; exact .inr (.inr (.inr (.inl ⟨rfl, rfl⟩)))
  | setKey k pressed => cases h; exact .inr (.inr (.inr (.inr (.inl ⟨k, pressed, rfl, rfl⟩))))
  | readFb | readDisplay | readSound | readFault => cases h; exact .inr (.inr (.inr (.inr (.inr rfl))))

/-! ### The invariant -/

/-- RESET meets the invariant for every well-formed configuration (R350). -/
theorem State.inv_afterReset {cfg : Config} (h : cfg.wellFormed = true) (draws : Nat) :
    (State.afterReset cfg draws).Inv where
  config  := h
  memory  := Memory.wf_nil cfg.font
  stack   := Nat.zero_le stackCap
  display := Display.shaped_blank cfg
  latch   := by rintro r ⟨⟩

/-- An image that fits ends inside memory, so LOAD keeps memory's canonical form (R70). -/
theorem State.Inv.after_loadImage {s : State} (h : s.Inv) {bytes : List Byte} (hfits : imageWellFormed bytes = true) :
    (s.loadImage bytes).Inv := by
  have hin : progBase + bytes.length ≤ memSize := by
    simp only [imageWellFormed, maxProg, memSize, progBase, decide_eq_true_eq] at hfits ⊢; omega
  exact (h.after_setMem (Memory.wf_writeAll _ h.memory hin)).after_setPc _

/-- Settles O17: RESET establishes the invariant anew, a TICK is a step, a LOAD writes inside memory, and the others touch no
part the invariant speaks of. -/
theorem hostOperationsKeepTheInvariant : Obligations.HostOperationsKeepTheInvariant := by
  intro c op s t p h hop
  rcases perform_cases hop with ⟨-, rfl⟩ | ⟨-, hstep⟩ | ⟨bytes, -, hfits, rfl⟩ | ⟨-, rfl⟩ | ⟨k, pressed, -, rfl⟩ | rfl
  · exact State.inv_afterReset h.config s.draws
  · exact stepKeepsTheInvariant s t h hstep
  · exact h.after_loadImage hfits
  · exact h.of_same_parts rfl rfl rfl rfl rfl
  · exact h.of_same_parts rfl rfl rfl rfl rfl
  · exact h

/-! ### The latch -/

/-- The record a response carries: that of a fault, none otherwise. -/
def responseRecord : Option TickResponse → Option FaultRecord
  | some (.fault r) => some r
  | _ => none

/-- After an instruction the latch holds what it held, or else the record of the response (R33). -/
theorem exec_fault {i : Instr} {s t : State} (h : exec i s = .next t) :
    t.fault = s.fault.or (responseRecord t.response) := by
  rcases exec_cases i s with ⟨changed, u, hdone, -, hfault, -, -⟩ | ⟨kind, bad, hraise⟩
  · cases hdone.symm.trans h
    exact hfault.trans Option.or_none.symm
  · cases hraise.symm.trans h
    rfl

/-- After a TICK the latch holds what it held, or else the record of the response (R33). -/
theorem step_fault {s t : State} (h : step s = .next t) : t.fault = s.fault.or (responseRecord t.response) := by
  rcases step_cases s with ⟨-, hstep⟩ | ⟨-, i, -, hstep⟩ | ⟨-, w, -, hstep⟩ <;> rw [hstep] at h
  · cases h; rfl
  · exact exec_fault (s := s.advance) h
  · cases h; exact Option.or_none.symm

/-- No host operation but RESET changes a latch that holds a record (R33). -/
theorem perform_keeps_set_latch {c : Colours} {op : HostOp} {s t : State} {p : HostResponse} {f : FaultRecord}
    (h : perform c op s = .next (p, t)) (hop : op ≠ .reset) (hlatch : s.fault = some f) : t.fault = some f := by
  rcases perform_cases h with ⟨hreset, -⟩ | ⟨-, hstep⟩ | ⟨bytes, -, -, rfl⟩ | ⟨-, rfl⟩ | ⟨k, pressed, -, rfl⟩ | rfl
  · exact absurd hreset hop
  · rw [step_fault hstep, hlatch, Option.some_or]
  all_goals exact hlatch

/-- Settles O14: an empty latch takes the record of the TICK's response, a set one is kept, RESET empties it, and READ_FAULT
gives it. -/
theorem latchKeepsTheFirstFault : Obligations.LatchKeepsTheFirstFault := by
  refine ⟨fun s t hstep hnone => ?_, fun c op s t p f => perform_keeps_set_latch, fun c s => ⟨_, rfl, rfl⟩,
    fun c s => rfl⟩
  have hlatch := step_fault hstep
  rw [hnone, Option.none_or] at hlatch
  exact hlatch

end Sys2Proof.Machine

/-! What an instruction changes: its effect where no fault is raised, and the parts of the state it leaves unchanged. -/

namespace Sys2Proof.Machine

/-- The state an instruction leaves where it raises no fault, but for the response; `exec_eq` ties it to `exec`. -/
def effect (i : Instr) (s : State) : State :=
  match i with
  | .cls => s.setDisp (blankDisplay s.cfg.width s.cfg.height)
  | .ret => (s.setStack s.stack.dropLast).setPc (s.stack.getLastD 0)
  | .jp nnn => s.setPc (addrOperand nnn)
  | .call nnn => (s.setStack (s.stack ++ [s.pc])).setPc (addrOperand nnn)
  | .seImm x nn => s.skipIf (s.readV x == nn)
  | .sneImm x nn => s.skipIf (s.readV x != nn)
  | .seReg x y => s.skipIf (s.readV x == s.readV y)
  | .ldImm x nn => s.writeV x nn
  | .addImm x nn => s.writeV x (s.readV x + nn)
  | .ldReg x y => s.writeV x (s.readV y)
  | .orReg x y => s.writeV x (s.readV x ||| s.readV y)
  | .andReg x y => s.writeV x (s.readV x &&& s.readV y)
  | .xorReg x y => s.writeV x (s.readV x ^^^ s.readV y)
  | .addReg x y => s.writeResultThenFlag x (s.readV x + s.readV y) (carryOut (s.readV x) (s.readV y))
  | .subReg x y => s.writeResultThenFlag x (s.readV x - s.readV y) (noBorrow (s.readV x) (s.readV y))
  | .shr x y => s.writeResultThenFlag x (s.shiftSource x y >>> 1) (lowBitOut (s.shiftSource x y))
  | .subnReg x y => s.writeResultThenFlag x (s.readV y - s.readV x) (noBorrow (s.readV y) (s.readV x))
  | .shl x y => s.writeResultThenFlag x (s.shiftSource x y <<< 1) (highBitOut (s.shiftSource x y))
  | .sneReg x y => s.skipIf (s.readV x != s.readV y)
  | .ldI nnn => s.setI (addrOperand nnn)
  | .jpV0 nnn => s.setPc (addrOperand nnn + zext16 (s.readV 0))
  | .rnd x nn => (s.writeV x (s.randomByte &&& nn)).countDraw
  | .drw x y n => s.drawSprite x y n
  | .skp x => s.skipIf (s.keyPressed ((s.readV x).setWidth 4) == true)
  | .sknp x => s.skipIf (s.keyPressed ((s.readV x).setWidth 4) == false)
  | .ldVxDt x => s.writeV x s.dt
  | .ldVxK x =>
    match s.firstPressed with
    | some k => s.writeV x (k.setWidth 8)
    | none => s.setPc (s.pc - 2)
  | .ldDtVx x => s.setDt (s.readV x)
  | .ldStVx x => s.setSt (s.readV x)
  | .addIVx x => (s.setI (s.i + zext16 (s.readV x))).indexFlag (s.i + zext16 (s.readV x))
  | .ldFVx x => s.setI (glyphAddress (s.readV x))
  | .ldBVx x => s.storeBytes s.i.toNat (bcdDigits (s.readV x))
  | .storeRegs x => (s.storeBytes s.i.toNat (s.registersUpTo x)).indexAfterTransfer x
  | .loadRegs x => (s.loadBytes s.i.toNat (x.toNat + 1)).indexAfterTransfer x

/-! ### The effect is what `exec` completes with -/

/-- A result that completes with the state `t`, or raises a fault of the instruction `i` on the state `s`. -/
def CompletesOrRaises (i : Instr) (s t : State) (r : Result) : Prop :=
  (∃ changed, r = complete changed t) ∨ ∃ kind bad, r = raise i kind bad s

theorem completesOrRaises_afterCheck (i : Instr) (check : Option AccessFault) (s t : State) (changed : Bool) :
    CompletesOrRaises i s t (afterCheck i check s (complete changed t)) := by
  cases check with
  | none => exact .inl ⟨changed, rfl⟩
  | some f => exact .inr ⟨f.kind, some f.bad, rfl⟩

/-- A resolved key is the low nibble of the index, under both policies (R260). -/
theorem resolveKey_some {policy : KeyIndexPolicy} {v : Byte} {k : Nibble} (h : resolveKey policy v = some k) :
    k = v.setWidth 4 := by
  unfold resolveKey at h
  split at h
  · exact (Option.some.inj h).symm
  · cases policy with
    | fault => cases h
    | mask => exact (Option.some.inj h).symm

theorem completesOrRaises_skipOnKey (i : Instr) (x : Nibble) (wanted : Bool) (s : State) :
    CompletesOrRaises i s (s.skipIf (s.keyPressed ((s.readV x).setWidth 4) == wanted)) (skipOnKey i x wanted s) := by
  unfold skipOnKey
  split
  · exact .inr ⟨_, _, rfl⟩
  · next k hkey => rw [resolveKey_some hkey]; exact .inl ⟨false, rfl⟩

/-- An instruction completes with its effect, or raises a fault on the state as it was. -/
theorem exec_eq (i : Instr) (s : State) : CompletesOrRaises i s (effect i s) (exec i s) := by
  cases i with
  | ret =>
    simp only [exec, execRet]
    cases h : s.pop with
    | none => exact .inr ⟨_, _, rfl⟩
    | some p =>
      obtain ⟨l, hl, ht⟩ := State.pop_eq_some_iff.1 h
      refine .inl ⟨false, ?_⟩
      simp only [effect, hl, ht, List.dropLast_concat, List.getLastD_concat]
  | call nnn =>
    simp only [exec, execCall]
    cases h : s.push s.pc with
    | none => exact .inr ⟨_, _, rfl⟩
    | some t => rw [(State.push_eq_some_iff.1 h).2]; exact .inl ⟨false, rfl⟩
  | drw x y n => exact completesOrRaises_afterCheck _ _ _ _ _
  | ldBVx x => exact completesOrRaises_afterCheck _ _ _ _ _
  | storeRegs x => exact completesOrRaises_afterCheck _ _ _ _ _
  | loadRegs x => exact completesOrRaises_afterCheck _ _ _ _ _
  | skp x => exact completesOrRaises_skipOnKey _ x true s
  | sknp x => exact completesOrRaises_skipOnKey _ x false s
  | ldVxK x =>
    cases h : s.firstPressed <;> exact .inl ⟨false, by simp only [exec, execLdVxK, effect, h]⟩
  | _ => exact .inl ⟨_, rfl⟩

/-- The next state of an instruction: the state as it was with a fault latched, or the effect with its response. -/
theorem exec_next_cases {i : Instr} {s t : State} (h : exec i s = .next t) :
    (∃ r, t = s.latch r) ∨ ∃ changed, t = (effect i s).respond (.ok changed) := by
  rcases exec_eq i s with ⟨changed, hdone⟩ | ⟨kind, bad, hraise⟩
  · cases hdone.symm.trans h; exact .inr ⟨changed, rfl⟩
  · cases hraise.symm.trans h; exact .inl ⟨_, rfl⟩

/-! ### The general registers -/

/-- R22, R24: the effect leaves every register that is no destination and no flag written. -/
theorem effect_readV {i : Instr} {s : State} {r : Nibble} (hdest : r ∉ destinations i)
    (hflag : ¬(r = VF ∧ writesFlag s.cfg i = true)) : (effect i s).readV r = s.readV r := by
  cases i with
  | ldImm x _ | addImm x _ | ldReg x _ | orReg x _ | andReg x _ | xorReg x _ | rnd x _ | ldVxDt x =>
    exact State.readV_writeV_other _ _ _ _ (mt List.mem_singleton.2 hdest)
  | addReg x _ | subReg x _ | shr x _ | subnReg x _ | shl x _ =>
    have hvf : VF ≠ r := fun h => hflag ⟨h.symm, rfl⟩
    have hx : x ≠ r := fun h => hdest (List.mem_singleton.2 h.symm)
    simp only [effect, State.writeResultThenFlag_readV, if_neg hvf, if_neg hx]
  | ldVxK x =>
    simp only [effect]
    split
    · exact State.readV_writeV_other _ _ _ _ (mt List.mem_singleton.2 hdest)
    · rfl
  | drw x y n =>
    exact State.readV_writeV_other _ _ _ _ fun h => hflag ⟨h, rfl⟩
  | addIVx x =>
    simp only [effect, State.indexFlag_readV]
    split
    · next hvf =>
      have hpolicy : s.cfg.fx1eVf = .noFlag := by simpa [writesFlag, hvf] using hflag
      simp [hpolicy, indexFlagByte, hvf]
    · rfl
  | loadRegs x =>
    have hr : ¬r.toNat < x.toNat + 1 := fun h =>
      hdest (List.mem_map.2 ⟨r.toNat, List.mem_range.2 h, by simp⟩)
    exact (State.loadBytes_readV s _ _ (by omega) r).trans (if_neg hr)
  | _ => rfl

/-- Settles O22: a fault leaves every register, and the effect all but the destinations and the flag. -/
theorem onlyDestinationsAndFlagChange : Obligations.OnlyDestinationsAndFlagChange := by
  intro i s t r h hdest hflag
  rcases exec_next_cases h with ⟨f, rfl⟩ | ⟨changed, rfl⟩
  · rfl
  · exact effect_readV hdest hflag

/-! ### The other parts of the state -/

section
variable {i : Instr} {s : State}

/-- FX0A touches the general registers and PC alone (R266). -/
theorem effect_ldVxK (x : Nibble) (s : State) :
    effect (.ldVxK x) s = { s with v := (effect (.ldVxK x) s).v, pc := (effect (.ldVxK x) s).pc } := by
  simp only [effect]
  split <;> rfl

theorem effect_stack (h : (effect i s).stack ≠ s.stack) : i = .ret ∨ ∃ nnn, i = .call nnn := by
  cases i with
  | ret => exact .inl rfl
  | call nnn => exact .inr ⟨nnn, rfl⟩
  | ldVxK x => rw [effect_ldVxK] at h; exact absurd rfl h
  | _ => exact absurd rfl h

theorem effect_dt (h : (effect i s).dt ≠ s.dt) : ∃ x, i = .ldDtVx x := by
  cases i with
  | ldDtVx x => exact ⟨x, rfl⟩
  | ldVxK x => rw [effect_ldVxK] at h; exact absurd rfl h
  | _ => exact absurd rfl h

theorem effect_st (h : (effect i s).st ≠ s.st) : ∃ x, i = .ldStVx x := by
  cases i with
  | ldStVx x => exact ⟨x, rfl⟩
  | ldVxK x => rw [effect_ldVxK] at h; exact absurd rfl h
  | _ => exact absurd rfl h

theorem effect_disp (h : (effect i s).disp ≠ s.disp) : i = .cls ∨ ∃ x y n, i = .drw x y n := by
  cases i with
  | cls => exact .inl rfl
  | drw x y n => exact .inr ⟨x, y, n, rfl⟩
  | ldVxK x => rw [effect_ldVxK] at h; exact absurd rfl h
  | _ => exact absurd rfl h

theorem effect_mem (h : (effect i s).mem ≠ s.mem) : ∃ x, i = .ldBVx x ∨ i = .storeRegs x := by
  cases i with
  | ldBVx x => exact ⟨x, .inl rfl⟩
  | storeRegs x => exact ⟨x, .inr rfl⟩
  | ldVxK x => rw [effect_ldVxK] at h; exact absurd rfl h
  | _ => exact absurd rfl h

theorem effect_draws (h : (effect i s).draws ≠ s.draws) : ∃ x nn, i = .rnd x nn := by
  cases i with
  | rnd x nn => exact ⟨x, nn, rfl⟩
  | ldVxK x => rw [effect_ldVxK] at h; exact absurd rfl h
  | _ => exact absurd rfl h

/-- A transfer moves I only under its quirk (R236). -/
theorem State.indexAfterTransfer_i {x : Nibble} (h : (s.indexAfterTransfer x).i ≠ s.i) :
    s.cfg.quirkLdstIncI = true := by
  by_contra hquirk
  exact h (if_neg hquirk)

theorem effect_i (h : (effect i s).i ≠ s.i) :
    (∃ nnn, i = .ldI nnn) ∨ (∃ x, i = .addIVx x ∨ i = .ldFVx x) ∨
      (s.cfg.quirkLdstIncI = true ∧ ∃ x, i = .storeRegs x ∨ i = .loadRegs x) := by
  cases i with
  | ldI nnn => exact .inl ⟨nnn, rfl⟩
  | addIVx x => exact .inr (.inl ⟨x, .inl rfl⟩)
  | ldFVx x => exact .inr (.inl ⟨x, .inr rfl⟩)
  | storeRegs x =>
    exact .inr (.inr ⟨State.indexAfterTransfer_i (s := s.storeBytes s.i.toNat (s.registersUpTo x)) h, x, .inl rfl⟩)
  | loadRegs x =>
    exact .inr (.inr ⟨State.indexAfterTransfer_i (s := s.loadBytes s.i.toNat (x.toNat + 1)) h, x, .inr rfl⟩)
  | ldVxK x => rw [effect_ldVxK] at h; exact absurd rfl h
  | _ => exact absurd rfl h

/-- No instruction changes a key or the configuration (R31, R36). -/
theorem exec_key_cfg {t : State} (h : exec i s = .next t) : t.key = s.key ∧ t.cfg = s.cfg := by
  rcases exec_cases i s with ⟨changed, u, hdone, -, -, hcfg, hkey⟩ | ⟨kind, bad, hraise⟩
  · cases hdone.symm.trans h; exact ⟨hkey, hcfg⟩
  · cases hraise.symm.trans h; exact ⟨rfl, rfl⟩

end

/-- Settles O23: a fault leaves every part, and each part's lemma names the instructions whose effect changes it. -/
theorem onlyTheNamedInstructionsChangeEachPart : Obligations.OnlyTheNamedInstructionsChangeEachPart := by
  intro i s t h
  obtain ⟨hkey, hcfg⟩ := exec_key_cfg h
  rcases exec_next_cases h with ⟨r, rfl⟩ | ⟨changed, rfl⟩
  · exact ⟨absurd rfl, absurd rfl, absurd rfl, absurd rfl, absurd rfl, absurd rfl, hkey, hcfg, absurd rfl⟩
  · exact ⟨effect_stack, effect_dt, effect_st, effect_disp, effect_mem, effect_i, hkey, hcfg, effect_draws⟩

/-! ### PC -/

/-- R152: a skip that executes at `a + 2` goes to `a + 4` where its condition holds. -/
theorem State.advance_skipIf_pc (s : State) {cond : Bool} {p : Prop} [Decidable p] (h : cond = true ↔ p) :
    (s.advance.skipIf cond).pc = if p then s.pc + 4 else s.pc + 2 := by
  have htaken : s.pc + 2 + 2 = s.pc + 4 := BitVec.add_assoc s.pc 2 2
  rw [← if_congr h rfl rfl, ← htaken]
  rfl

/-- R266: from the address `a`, FX0A stays at `a` while no key is pressed and else ends at `a + 2`. -/
theorem effect_ldVxK_advance_pc (x : Nibble) (s : State) [Decidable (∀ k, s.keyPressed k = false)] :
    (effect (.ldVxK x) s.advance).pc = if ∀ k, s.keyPressed k = false then s.pc else s.pc + 2 := by
  simp only [effect]
  split
  · next k hk =>
    have hpressed : s.keyPressed k = true := (State.firstPressed_eq_some_iff.1 hk).1
    exact (if_neg fun h => by simp [h] at hpressed).symm
  · next hnone =>
    have hback : s.pc + 2 - 2 = s.pc := BitVec.add_sub_cancel _ _
    exact hback.trans (if_pos (State.firstPressed_eq_none_iff.1 hnone)).symm

/-- Where the word at PC decodes to an instruction, the step runs it on the advanced state (R124). -/
theorem step_of_instr {s : State} {i : Instr} (hpc : s.pc.toNat + 1 ≤ 0xFFF) (hword : decode s.wordAtPc = .instr i) :
    step s = exec i s.advance := by
  rcases step_cases s with ⟨hout, -⟩ | ⟨-, j, hj, hstep⟩ | ⟨-, w, hw, -⟩
  · omega
  · cases hword.symm.trans hj; exact hstep
  · cases hword.symm.trans hw

/-- Where the word at PC is unknown, the step advances PC and responds so (R127). -/
theorem step_of_unknown {s : State} {w : Word} (hpc : s.pc.toNat + 1 ≤ 0xFFF) (hword : decode s.wordAtPc = .unknown w) :
    step s = .next (s.advance.unknownOpcode w) := by
  rcases step_cases s with ⟨hout, -⟩ | ⟨-, j, hj, -⟩ | ⟨-, u, hu, hstep⟩
  · omega
  · cases hword.symm.trans hj
  · cases hword.symm.trans hu; exact hstep

/-- Past the end of memory the step is a fetch fault (R121). -/
theorem step_of_fetchFault {s : State} (hpc : 0xFFF < s.pc.toNat + 1) :
    step s = .next (s.fetchFault (max s.pc.toNat 0x1000)) := by
  rcases step_cases s with ⟨-, hstep⟩ | ⟨hin, -⟩ | ⟨hin, -⟩
  · exact hstep
  all_goals omega

/-- Settles O24: PC stays at a fetch fault and is `a + 2` after an unknown word and a fault in execute; the effect of each
instruction gives its row of R27's table. -/
theorem pcAfterEachTick : Obligations.PcAfterEachTick := by
  refine ⟨fun s hpc => ⟨_, step_of_fetchFault hpc, rfl⟩, fun s hpc hword => ⟨_, step_of_unknown hpc hword, rfl⟩,
    fun s i hpc hword => ?_⟩
  have hstep := step_of_instr hpc hword
  rcases exec_eq i s.advance with ⟨changed, hdone⟩ | ⟨kind, bad, hraise⟩
  · refine ⟨_, hstep.trans hdone, .inr ⟨⟨changed, rfl⟩, ?_⟩⟩
    cases i with
    | seImm _ _ | seReg _ _ | skp _ | sknp _ => exact s.advance_skipIf_pc beq_iff_eq
    | sneImm _ _ | sneReg _ _ => exact s.advance_skipIf_pc bne_iff_ne
    | ldVxK x => exact effect_ldVxK_advance_pc x s
    | _ => rfl
  · exact ⟨_, hstep.trans hraise, .inl ⟨⟨_, rfl⟩, rfl⟩⟩

end Sys2Proof.Machine

/-! Memory (20_memory.md): the font under a step (R64), and LOAD (R70 to R72). -/

namespace Sys2Proof.Machine

/-! ### The font -/

section
variable {s t : State}

/-- The font stays intact where the configuration and the bytes of the font range stay. -/
theorem State.FontIntact.of_same_font (h : s.FontIntact) (hcfg : t.cfg = s.cfg)
    (hread : ∀ a, inFont a = true → t.readMem a = s.readMem a) : t.FontIntact := by
  intro a ha
  rw [hread a ha, hcfg]
  exact h a ha

theorem State.readMem_congr (hcfg : t.cfg = s.cfg) (hmem : t.mem = s.mem) (a : Nat) : t.readMem a = s.readMem a := by
  simp only [State.readMem, hcfg, hmem]

/-- A store that passes its check leaves every font byte: under policy Fault its range holds none, under policy Ignore a
font byte keeps its value (R64). -/
theorem State.storeBytes_readMem_font {base : Nat} {bs : List Byte} {a : Nat}
    (hpolicy : s.cfg.fontWritePolicy ≠ .allow)
    (hcheck : checkWrite s.cfg.fontWritePolicy base bs.length = none) (ha : inFont a = true) :
    (s.storeBytes base bs).readMem a = s.readMem a := by
  rw [State.storeBytes_readMem, dif_neg]
  rintro ⟨⟨hlow, hhigh⟩, hkept⟩
  cases hp : s.cfg.fontWritePolicy with
  | fault =>
    have houtside : inFont a = false := (checkWrite_eq_none_iff.1 hcheck).2 hp a hlow hhigh
    simp [houtside] at ha
  | ignore => exact hkept ⟨ha, hp⟩
  | allow => exact hpolicy hp

/-- A checked store leaves every font byte, whether its check passes or not. -/
theorem afterCheck_storeBytes_readMem_font {ins : Instr} {base n : Nat} {changed : Bool} {u : State} {a : Nat}
    (hpolicy : s.cfg.fontWritePolicy ≠ .allow)
    (h : afterCheck ins (checkWrite s.cfg.fontWritePolicy base n) s (complete changed u) = .next t)
    (bs : List Byte) (hlength : bs.length = n) (hu : u.readMem a = (s.storeBytes base bs).readMem a)
    (ha : inFont a = true) : t.readMem a = s.readMem a := by
  subst hlength
  rcases afterCheck_cases ins (checkWrite s.cfg.fontWritePolicy base bs.length) s u changed with
    ⟨hcheck, hdone⟩ | ⟨f, -, hraise⟩
  · cases hdone.symm.trans h
    exact hu.trans (State.storeBytes_readMem_font hpolicy hcheck ha)
  · cases hraise.symm.trans h
    rfl

theorem State.registersUpTo_length (s : State) (x : Nibble) : (s.registersUpTo x).length = x.toNat + 1 := by
  simp only [State.registersUpTo, List.length_map, List.length_range]

/-- An instruction other than FX33 and FX55 leaves memory as it is. -/
theorem exec_mem {i : Instr} (h : exec i s = .next t) (hother : ¬∃ x, i = .ldBVx x ∨ i = .storeRegs x) :
    t.mem = s.mem := by
  rcases exec_next_cases h with ⟨r, rfl⟩ | ⟨changed, rfl⟩
  · rfl
  · exact not_not.1 (mt effect_mem hother)

/-- Under policies Fault and Ignore an instruction leaves every font byte: FX33 and FX55 store after a check, and no
other instruction writes memory. -/
theorem exec_readMem_font {i : Instr} {a : Nat} (hpolicy : s.cfg.fontWritePolicy ≠ .allow) (h : exec i s = .next t)
    (ha : inFont a = true) : t.readMem a = s.readMem a := by
  by_cases hstore : ∃ x, i = .ldBVx x ∨ i = .storeRegs x
  · obtain ⟨x, rfl | rfl⟩ := hstore
    · exact afterCheck_storeBytes_readMem_font hpolicy h (bcdDigits (s.readV x)) rfl rfl ha
    · exact afterCheck_storeBytes_readMem_font hpolicy h (s.registersUpTo x) (s.registersUpTo_length x) rfl ha
  · exact State.readMem_congr (exec_key_cfg h).2 (exec_mem h hstore) a

end

/-- Settles O19: a fetch fault and an unknown word leave memory, and an instruction leaves every font byte. -/
theorem noInstructionOverwritesTheFont : Obligations.NoInstructionOverwritesTheFont := by
  intro s t hpolicy hfont h
  rcases step_cases s with ⟨-, hstep⟩ | ⟨-, i, -, hstep⟩ | ⟨-, w, -, hstep⟩ <;> rw [hstep] at h
  · cases h; exact hfont
  · exact hfont.of_same_font (exec_key_cfg h).2 fun a ha => exec_readMem_font (s := s.advance) hpolicy h ha
  · cases h; exact hfont

/-! ### LOAD -/

theorem imageWellFormed_iff {bytes : List Byte} : imageWellFormed bytes = true ↔ bytes.length ≤ maxProg :=
  decide_eq_true_iff

/-- THE LAW OF A LOAD: address `0x200 + k` reads the `k`-th byte of the image, every other address reads as before. -/
theorem State.loadImage_readMem (s : State) (bytes : List Byte) (a : Nat) :
    (s.loadImage bytes).readMem a =
      if h : progBase ≤ a ∧ a < progBase + bytes.length then bytes[a - progBase]'(by omega) else s.readMem a :=
  Memory.read_writeAll _ _ _ _ _

theorem perform_load_of_fits {c : Colours} {s : State} {bytes : List Byte} (h : bytes.length ≤ maxProg) :
    perform c (.load bytes) s = .next (.loadOk, s.loadImage bytes) := by
  simp only [perform, State.hostLoad, if_pos (imageWellFormed_iff.2 h)]

theorem perform_load_of_tooLarge {c : Colours} {s : State} {bytes : List Byte} (h : maxProg < bytes.length) :
    perform c (.load bytes) s = .next (.programTooLarge, s) := by
  simp only [perform, State.hostLoad, if_neg (mt imageWellFormed_iff.1 (Nat.not_le_of_gt h))]

/-- Settles O53: an image that fits is written at 0x200 and read back by the law of a LOAD; a larger one is rejected. -/
theorem loadCopiesTheImageAndSetsPc : Obligations.LoadCopiesTheImageAndSetsPc := by
  intro c s b
  refine ⟨fun hfits => ⟨s.loadImage b, perform_load_of_fits hfits, rfl, fun k hk => ?_, fun a ha => ?_, rfl⟩,
    fun hlarge => perform_load_of_tooLarge hlarge⟩
  · rw [State.loadImage_readMem, dif_pos ⟨Nat.le_add_right _ _, Nat.add_lt_add_left hk _⟩]
    simp only [Nat.add_sub_cancel_left]
  · rw [State.loadImage_readMem, dif_neg fun hin => ha.elim (Nat.not_lt_of_ge hin.1) (Nat.not_le_of_gt hin.2)]

end Sys2Proof.Machine

/-! The encoding (30_encoding.md): `decode` and `encode` are inverse to each other, the unknown words, the opcode map. -/

namespace Sys2Proof

/-! ### A word is its fields (R92) -/

section
variable {f k m p v w : Word}

theorem eq_of_fields_N (hF : fieldF v = fieldF w) (hX : fieldX v = fieldX w) (hY : fieldY v = fieldY w)
    (hN : fieldN v = fieldN w) : v = w := by
  rw [← BitVec.toNat_inj] at *
  simp only [fieldF, fieldX, fieldY, fieldN, BitVec.extractLsb'_toNat, Nat.shiftRight_eq_div_pow] at *
  omega

theorem eq_of_fields_NN (hF : fieldF v = fieldF w) (hX : fieldX v = fieldX w) (hNN : fieldNN v = fieldNN w) : v = w := by
  rw [← BitVec.toNat_inj] at *
  simp only [fieldF, fieldX, fieldNN, BitVec.extractLsb'_toNat, Nat.shiftRight_eq_div_pow] at *
  omega

theorem eq_of_fields_NNN (hF : fieldF v = fieldF w) (hNNN : fieldNNN v = fieldNNN w) : v = w := by
  rw [← BitVec.toNat_inj] at *
  simp only [fieldF, fieldNNN, BitVec.extractLsb'_toNat, Nat.shiftRight_eq_div_pow] at *
  omega

/-! ### Each format (R93) puts a word together again from its fixed part and its fields -/

theorem formatA_fields (hF : fieldF w = fieldF f) (hNNN : fieldNNN f = 0) : formatA f (fieldNNN w) = w :=
  eq_of_fields_NNN (by rw [fieldF_formatA, hF]) (by simp [fieldNNN_formatA, hNNN])

theorem formatXK_fields (hF : fieldF w = fieldF f) (hX : fieldX f = 0) (hNN : fieldNN f = 0) :
    formatXK f (fieldX w) (fieldNN w) = w :=
  eq_of_fields_NN (by rw [fieldF_formatXK, hF]) (by simp [fieldX_formatXK, hX]) (by simp [fieldNN_formatXK, hNN])

theorem formatXY_fields (hF : fieldF w = fieldF f) (hN : fieldN w = fieldN f) (hX : fieldX f = 0) (hY : fieldY f = 0) :
    formatXY f (fieldX w) (fieldY w) = w :=
  eq_of_fields_N (by rw [fieldF_formatXY, hF]) (by simp [fieldX_formatXY, hX]) (by simp [fieldY_formatXY, hY])
    (by rw [fieldN_formatXY, hN])

theorem formatXYN_fields (hF : fieldF w = fieldF f) (hX : fieldX f = 0) (hY : fieldY f = 0) (hN : fieldN f = 0) :
    formatXYN f (fieldX w) (fieldY w) (fieldN w) = w :=
  eq_of_fields_N (by rw [fieldF_formatXYN, hF]) (by simp [fieldX_formatXYN, hX]) (by simp [fieldY_formatXYN, hY])
    (by simp [fieldN_formatXYN, hN])

theorem formatXS_fields (hF : fieldF w = fieldF f) (hNN : fieldNN w = fieldNN f) (hX : fieldX f = 0) :
    formatXS f (fieldX w) = w :=
  eq_of_fields_NN (by rw [fieldF_formatXS, hF]) (by simp [fieldX_formatXS, hX]) (by rw [fieldNN_formatXS, hNN])

/-! ### A field under a mask that covers it -/

theorem extractLsb'_of_and {start len : Nat} (h : w &&& m = p) (hm : m.extractLsb' start len = BitVec.allOnes len) :
    w.extractLsb' start len = p.extractLsb' start len := by
  rw [← h, BitVec.extractLsb'_and, hm, BitVec.and_allOnes]

theorem fieldF_toNat (w : Word) : (fieldF w).toNat = w.toNat / 0x1000 := by
  have hlt := w.isLt
  rw [fieldF, BitVec.extractLsb'_toNat, Nat.shiftRight_eq_div_pow, Nat.mod_eq_of_lt]
  omega

theorem and_0xF000_eq_iff (hk : fieldNNN k = 0) : w &&& 0xF000 = k ↔ (fieldF w).toNat = k.toNat / 0x1000 := by
  rw [← fieldF_toNat, BitVec.toNat_inj]
  refine ⟨fun h => extractLsb'_of_and h rfl, fun h => eq_of_fields_NNN ?_ ?_⟩
  · rw [← h, fieldF, fieldF, BitVec.extractLsb'_and]; exact BitVec.and_allOnes
  · rw [hk, fieldNNN, BitVec.extractLsb'_and]; exact BitVec.and_zero

theorem and_0x000F_eq_iff : w &&& 0x000F = k ↔ (fieldN w).toNat = k.toNat := by
  rw [← BitVec.toNat_inj, BitVec.toNat_and, fieldN, BitVec.extractLsb'_toNat, Nat.shiftRight_zero]
  exact Eq.congr_left (Nat.and_two_pow_sub_one_eq_mod w.toNat 4)

theorem and_0x00FF_eq_iff : w &&& 0x00FF = k ↔ (fieldNN w).toNat = k.toNat := by
  rw [← BitVec.toNat_inj, BitVec.toNat_and, fieldNN, BitVec.extractLsb'_toNat, Nat.shiftRight_zero]
  exact Eq.congr_left (Nat.and_two_pow_sub_one_eq_mod w.toNat 8)

end

/-! ### Decoding an encoded word -/

/-- By format: the fields of an encoded word are those of its fixed part joined with the operands, and the fixed part has
zeros where the operands stand. -/
theorem decode_encode (i : Instr) : decode (encode i) = .instr i := by
  cases i with
  | cls | ret => rfl
  | jp nnn | call nnn | ldI nnn | jpV0 nnn =>
    simp only [encode, decode, fieldF_formatA, fieldNNN_formatA]
    simp [fieldF, fieldNNN]
  | seImm x nn | sneImm x nn | ldImm x nn | addImm x nn | rnd x nn =>
    simp only [encode, decode, fieldF_formatXK, fieldX_formatXK, fieldNN_formatXK]
    simp [fieldF, fieldX, fieldNN]
  | seReg x y | sneReg x y | ldReg x y | orReg x y | andReg x y | xorReg x y | addReg x y | subReg x y | shr x y
  | subnReg x y | shl x y =>
    simp only [encode, decode, decodeLowNibble0, decodeFamily8, fieldF_formatXY, fieldX_formatXY, fieldY_formatXY,
      fieldN_formatXY]
    simp [fieldF, fieldX, fieldY, fieldN]
  | drw x y n =>
    simp only [encode, decode, fieldF_formatXYN, fieldX_formatXYN, fieldY_formatXYN, fieldN_formatXYN]
    simp [fieldF, fieldX, fieldY, fieldN]
  | skp x | sknp x | ldVxDt x | ldVxK x | ldDtVx x | ldStVx x | addIVx x | ldFVx x | ldBVx x | storeRegs x
  | loadRegs x =>
    simp only [encode, decode, decodeFamilyE, decodeFamilyF, fieldF_formatXS, fieldX_formatXS, fieldNN_formatXS]
    simp [fieldF, fieldX, fieldNN]

/-- Settles O1. -/
theorem decodeOfEncodeIsTheInstruction : Obligations.DecodeOfEncodeIsTheInstruction := decode_encode

/-! ### The word of a decoder's outcome -/

/-- The word an outcome of the decoder stands for; `decode_word` says that it is the word decoded. -/
def Decoded.word : Decoded → Word
  | .instr i => encode i
  | .unknown w => w

section
variable {w : Word}

theorem decodeFamily0_word : (decodeFamily0 w).word = w := by
  unfold decodeFamily0
  split
  case h_1 h | h_2 h => exact (BitVec.eq_of_toNat_eq h).symm
  case h_3 => rfl

theorem decodeLowNibble0_word {i : Instr} (hi : fieldN w = 0 → encode i = w) : (decodeLowNibble0 w i).word = w := by
  unfold decodeLowNibble0
  split
  · next hN => exact hi hN
  · rfl

theorem decodeFamily8_word (hF : fieldF w = 0x8) : (decodeFamily8 w).word = w := by
  unfold decodeFamily8
  split
  case h_10 => rfl
  all_goals next hN => exact formatXY_fields hF (BitVec.eq_of_toNat_eq hN) rfl rfl

theorem decodeFamilyE_word (hF : fieldF w = 0xE) : (decodeFamilyE w).word = w := by
  unfold decodeFamilyE
  split
  case h_3 => rfl
  all_goals next hNN => exact formatXS_fields hF (BitVec.eq_of_toNat_eq hNN) rfl

theorem decodeFamilyF_word (hF : fieldF w = 0xF) : (decodeFamilyF w).word = w := by
  unfold decodeFamilyF
  split
  case h_10 => rfl
  all_goals next hNN => exact formatXS_fields hF (BitVec.eq_of_toNat_eq hNN) rfl

/-- No bit of a word is dropped by the decoder (R97): branch by branch, the word is its fixed part and its fields. -/
theorem decode_word (w : Word) : (decode w).word = w := by
  unfold decode
  split
  case h_1 => exact decodeFamily0_word
  case h_2 hF | h_3 hF | h_11 hF | h_12 hF => exact formatA_fields (BitVec.eq_of_toNat_eq hF) rfl
  case h_4 hF | h_5 hF | h_7 hF | h_8 hF | h_13 hF => exact formatXK_fields (BitVec.eq_of_toNat_eq hF) rfl rfl
  case h_6 hF | h_10 hF =>
    exact decodeLowNibble0_word fun hN => formatXY_fields (BitVec.eq_of_toNat_eq hF) hN rfl rfl
  case h_9 hF => exact decodeFamily8_word (BitVec.eq_of_toNat_eq hF)
  case h_14 hF => exact formatXYN_fields (BitVec.eq_of_toNat_eq hF) rfl rfl rfl
  case h_15 hF => exact decodeFamilyE_word (BitVec.eq_of_toNat_eq hF)
  case h_16 =>
    have hF : (fieldF w).toNat = 0xF := by
      have hlt := (fieldF w).isLt
      simp only [imp_false] at *
      omega
    exact decodeFamilyF_word (BitVec.eq_of_toNat_eq hF)

theorem decode_eq_instr_iff {i : Instr} : decode w = .instr i ↔ encode i = w :=
  ⟨fun h => (congrArg Decoded.word h).symm.trans (decode_word w), fun h => h ▸ decode_encode i⟩

theorem eq_of_decode_eq_unknown {u : Word} (h : decode w = .unknown u) : u = w :=
  (congrArg Decoded.word h).symm.trans (decode_word w)

end

/-- Settles O2. -/
theorem decodedInstructionReencodesToItsWord : Obligations.DecodedInstructionReencodesToItsWord :=
  fun _ _ => decode_eq_instr_iff.1

/-! ### The unknown words (R98), family by family -/

section
variable {w : Word}

theorem decodeFamily0_eq_unknown_iff : decodeFamily0 w = .unknown w ↔ w ≠ 0x00E0 ∧ w ≠ 0x00EE := by
  simp only [decodeFamily0, ne_eq, ← BitVec.toNat_inj]
  split <;> simp_all

theorem decodeLowNibble0_eq_unknown_iff {i : Instr} : decodeLowNibble0 w i = .unknown w ↔ (fieldN w).toNat ≠ 0 := by
  simp [decodeLowNibble0, ← BitVec.toNat_inj]

theorem decodeFamily8_eq_unknown_iff : decodeFamily8 w = .unknown w ↔
    (fieldN w).toNat = 0x8 ∨ (fieldN w).toNat = 0x9 ∨ (fieldN w).toNat = 0xA ∨ (fieldN w).toNat = 0xB ∨
      (fieldN w).toNat = 0xC ∨ (fieldN w).toNat = 0xD ∨ (fieldN w).toNat = 0xF := by
  unfold decodeFamily8
  split
  case h_10 =>
    have hlt := (fieldN w).isLt
    simp only [imp_false, true_iff] at *
    omega
  all_goals simp [*]

theorem decodeFamilyE_eq_unknown_iff : decodeFamilyE w = .unknown w ↔
    (fieldNN w).toNat ≠ 0x9E ∧ (fieldNN w).toNat ≠ 0xA1 := by
  unfold decodeFamilyE
  split <;> simp_all

theorem decodeFamilyF_eq_unknown_iff : decodeFamilyF w = .unknown w ↔
    (fieldNN w).toNat ≠ 0x07 ∧ (fieldNN w).toNat ≠ 0x0A ∧ (fieldNN w).toNat ≠ 0x15 ∧ (fieldNN w).toNat ≠ 0x18 ∧
      (fieldNN w).toNat ≠ 0x1E ∧ (fieldNN w).toNat ≠ 0x29 ∧ (fieldNN w).toNat ≠ 0x33 ∧ (fieldNN w).toNat ≠ 0x55 ∧
      (fieldNN w).toNat ≠ 0x65 := by
  unfold decodeFamilyF
  split <;> simp_all

end

/-- Settles O3: the masks of the list are read as fields, and for each value of F the decoder's family has the clause. -/
theorem unknownWordsAreExactlyTheListedOnes : Obligations.UnknownWordsAreExactlyTheListedOnes := by
  refine ⟨fun _ _ => eq_of_decode_eq_unknown, fun w => ?_⟩
  have hfamily0 : w.toNat < 0x1000 ↔ (fieldF w).toNat = 0 := by rw [fieldF_toNat]; omega
  simp (disch := decide) only [hfamily0, and_0xF000_eq_iff, and_0x000F_eq_iff, and_0x00FF_eq_iff, ne_eq]
  have hlt := (fieldF w).isLt
  interval_cases hF : (fieldF w).toNat <;>
    simp [decode, hF, decodeFamily0_eq_unknown_iff, decodeLowNibble0_eq_unknown_iff, decodeFamily8_eq_unknown_iff,
      decodeFamilyE_eq_unknown_iff, decodeFamilyF_eq_unknown_iff]

/-! ### The opcode map (R96) -/

theorem rowNumber_lt (i : Instr) : rowNumber i < 34 := by
  unfold rowNumber
  split <;> decide

theorem opcodeRow_mem (i : Instr) : opcodeRow i ∈ opcodeTable := by
  rw [opcodeRow, List.getD_eq_getElem _ _ (rowNumber_lt i)]
  exact List.getElem_mem _

/-- The rows of Laws/PerInstr.lean in one statement, by format. -/
theorem rowMatches_encode (i : Instr) : rowMatches (opcodeRow i) (encode i) = true := by
  cases i with
  | cls | ret => rfl
  | jp nnn | call nnn | ldI nnn | jpV0 nnn => exact Laws.rowMatches_formatA _ nnn rfl
  | seImm x nn | sneImm x nn | ldImm x nn | addImm x nn | rnd x nn => exact Laws.rowMatches_formatXK _ x nn rfl
  | seReg x y | sneReg x y | ldReg x y | orReg x y | andReg x y | xorReg x y | addReg x y | subReg x y | shr x y
  | subnReg x y | shl x y => exact Laws.rowMatches_formatXY _ x y rfl
  | drw x y n => exact Laws.rowMatches_formatXYN _ x y n rfl
  | skp x | sknp x | ldVxDt x | ldVxK x | ldDtVx x | ldStVx x | addIVx x | ldFVx x | ldBVx x | storeRegs x
  | loadRegs x => exact Laws.rowMatches_formatXS _ x rfl

section
variable {f w : Word}

theorem eq_of_rowMatches (h : rowMatches ⟨f, 0xFFFF⟩ w = true) : f = w :=
  (beq_iff_eq.1 h).symm.trans BitVec.and_allOnes

theorem formatA_of_rowMatches (h : rowMatches ⟨f, 0xF000⟩ w = true) (hNNN : fieldNNN f = 0) :
    formatA f (fieldNNN w) = w :=
  have hw : w &&& 0xF000 = f := beq_iff_eq.1 h
  formatA_fields (extractLsb'_of_and hw rfl) hNNN

theorem formatXK_of_rowMatches (h : rowMatches ⟨f, 0xF000⟩ w = true) (hX : fieldX f = 0) (hNN : fieldNN f = 0) :
    formatXK f (fieldX w) (fieldNN w) = w :=
  have hw : w &&& 0xF000 = f := beq_iff_eq.1 h
  formatXK_fields (extractLsb'_of_and hw rfl) hX hNN

theorem formatXY_of_rowMatches (h : rowMatches ⟨f, 0xF00F⟩ w = true) (hX : fieldX f = 0) (hY : fieldY f = 0) :
    formatXY f (fieldX w) (fieldY w) = w :=
  have hw : w &&& 0xF00F = f := beq_iff_eq.1 h
  formatXY_fields (extractLsb'_of_and hw rfl) (extractLsb'_of_and hw rfl) hX hY

theorem formatXYN_of_rowMatches (h : rowMatches ⟨f, 0xF000⟩ w = true) (hX : fieldX f = 0) (hY : fieldY f = 0)
    (hN : fieldN f = 0) : formatXYN f (fieldX w) (fieldY w) (fieldN w) = w :=
  have hw : w &&& 0xF000 = f := beq_iff_eq.1 h
  formatXYN_fields (extractLsb'_of_and hw rfl) hX hY hN

theorem formatXS_of_rowMatches (h : rowMatches ⟨f, 0xF0FF⟩ w = true) (hX : fieldX f = 0) : formatXS f (fieldX w) = w :=
  have hw : w &&& 0xF0FF = f := beq_iff_eq.1 h
  formatXS_fields (extractLsb'_of_and hw rfl) (extractLsb'_of_and hw rfl) hX

end

/-- A word that matches a row is the word of the row's instruction with the word's own fields; row by row, in R96's
order. -/
theorem exists_encode_of_rowMatches (w : Word) :
    ∀ r ∈ opcodeTable, rowMatches r w = true → ∃ i, opcodeRow i = r ∧ encode i = w := by
  simp only [opcodeTable, opcodeRowsLow, opcodeRowsHigh, List.cons_append, List.nil_append, List.forall_mem_cons]
  exact
    ⟨fun h => ⟨.cls, rfl, eq_of_rowMatches h⟩,
     fun h => ⟨.ret, rfl, eq_of_rowMatches h⟩,
     fun h => ⟨.jp _, rfl, formatA_of_rowMatches h rfl⟩,
     fun h => ⟨.call _, rfl, formatA_of_rowMatches h rfl⟩,
     fun h => ⟨.seImm _ _, rfl, formatXK_of_rowMatches h rfl rfl⟩,
     fun h => ⟨.sneImm _ _, rfl, formatXK_of_rowMatches h rfl rfl⟩,
     fun h => ⟨.seReg _ _, rfl, formatXY_of_rowMatches h rfl rfl⟩,
     fun h => ⟨.ldImm _ _, rfl, formatXK_of_rowMatches h rfl rfl⟩,
     fun h => ⟨.addImm _ _, rfl, formatXK_of_rowMatches h rfl rfl⟩,
     fun h => ⟨.ldReg _ _, rfl, formatXY_of_rowMatches h rfl rfl⟩,
     fun h => ⟨.orReg _ _, rfl, formatXY_of_rowMatches h rfl rfl⟩,
     fun h => ⟨.andReg _ _, rfl, formatXY_of_rowMatches h rfl rfl⟩,
     fun h => ⟨.xorReg _ _, rfl, formatXY_of_rowMatches h rfl rfl⟩,
     fun h => ⟨.addReg _ _, rfl, formatXY_of_rowMatches h rfl rfl⟩,
     fun h => ⟨.subReg _ _, rfl, formatXY_of_rowMatches h rfl rfl⟩,
     fun h => ⟨.shr _ _, rfl, formatXY_of_rowMatches h rfl rfl⟩,
     fun h => ⟨.subnReg _ _, rfl, formatXY_of_rowMatches h rfl rfl⟩,
     fun h => ⟨.shl _ _, rfl, formatXY_of_rowMatches h rfl rfl⟩,
     fun h => ⟨.sneReg _ _, rfl, formatXY_of_rowMatches h rfl rfl⟩,
     fun h => ⟨.ldI _, rfl, formatA_of_rowMatches h rfl⟩,
     fun h => ⟨.jpV0 _, rfl, formatA_of_rowMatches h rfl⟩,
     fun h => ⟨.rnd _ _, rfl, formatXK_of_rowMatches h rfl rfl⟩,
     fun h => ⟨.drw _ _ _, rfl, formatXYN_of_rowMatches h rfl rfl rfl⟩,
     fun h => ⟨.skp _, rfl, formatXS_of_rowMatches h rfl⟩,
     fun h => ⟨.sknp _, rfl, formatXS_of_rowMatches h rfl⟩,
     fun h => ⟨.ldVxDt _, rfl, formatXS_of_rowMatches h rfl⟩,
     fun h => ⟨.ldVxK _, rfl, formatXS_of_rowMatches h rfl⟩,
     fun h => ⟨.ldDtVx _, rfl, formatXS_of_rowMatches h rfl⟩,
     fun h => ⟨.ldStVx _, rfl, formatXS_of_rowMatches h rfl⟩,
     fun h => ⟨.addIVx _, rfl, formatXS_of_rowMatches h rfl⟩,
     fun h => ⟨.ldFVx _, rfl, formatXS_of_rowMatches h rfl⟩,
     fun h => ⟨.ldBVx _, rfl, formatXS_of_rowMatches h rfl⟩,
     fun h => ⟨.storeRegs _, rfl, formatXS_of_rowMatches h rfl⟩,
     fun h => ⟨.loadRegs _, rfl, formatXS_of_rowMatches h rfl⟩,
     List.forall_mem_nil _⟩

/-- A word that matches a row decodes to an instruction of that row. -/
theorem exists_decode_of_rowMatches {r : OpcodeRow} {w : Word} (hr : r ∈ opcodeTable) (h : rowMatches r w = true) :
    ∃ i, decode w = .instr i ∧ opcodeRow i = r := by
  obtain ⟨i, hrow, hw⟩ := exists_encode_of_rowMatches w r hr h
  exact ⟨i, decode_eq_instr_iff.2 hw, hrow⟩

/-- Settles O4: an instruction's word matches its row, and whatever row a word matches is that of its instruction. -/
theorem decoderFollowsTheOpcodeMap : Obligations.DecoderFollowsTheOpcodeMap := by
  refine ⟨rfl, fun w => ?_⟩
  cases hdec : decode w with
  | instr i =>
    have hw : encode i = w := decode_eq_instr_iff.1 hdec
    refine .inl ⟨i, rfl, opcodeRow_mem i, hw ▸ rowMatches_encode i, fun r hr hmatch => ?_⟩
    obtain ⟨j, hj, hrow⟩ := exists_decode_of_rowMatches hr hmatch
    cases hdec.symm.trans hj
    exact hrow.symm
  | unknown u =>
    refine .inr ⟨congrArg _ (eq_of_decode_eq_unknown hdec), fun r hr => Bool.eq_false_iff.2 fun hmatch => ?_⟩
    obtain ⟨j, hj, -⟩ := exists_decode_of_rowMatches hr hmatch
    cases hdec.symm.trans hj

/-- Settles O5: closed words, by evaluation of the decoder. -/
theorem specWordsDecodeToTheirInstructions : Obligations.SpecWordsDecodeToTheirInstructions := by
  unfold Obligations.SpecWordsDecodeToTheirInstructions
  decide

/-! ### The opcode table's numbers -/

theorem decodeTableWord_eq_some_iff {nbits w : Nat} {i : Instr} :
    decodeTableWord nbits w = some i ↔ decode (tableWord nbits w) = .instr i := by
  simp only [decodeTableWord, decodeBytes, bigEndian_bytes]
  cases decode (tableWord nbits w) <;> simp

end Sys2Proof

namespace Sys2Proof.Machine

/-- Settles O9: the next fetch reads the placed word, and the step runs what it decodes to. -/
theorem placedWordIsTheNextInstruction : Obligations.PlacedWordIsTheNextInstruction := by
  intro s w i hi
  obtain ⟨hpc, hword⟩ := s.placeWord_spec (tableWord 16 w)
  exact step_of_instr hpc (hword ▸ decodeTableWord_eq_some_iff.1 hi)

end Sys2Proof.Machine

/-! One TICK (40_cycle.md): what it runs and responds, and that no instruction reads the latch or the last response. -/

namespace Sys2Proof.Machine

/-! ### Fetch and decode -/

/-- Settles O6: the state with PC + 2 is the state after the fetch's advance (R122). -/
theorem stepRunsTheDecodedInstruction : Obligations.StepRunsTheDecodedInstruction :=
  fun _ _ hpc hword => step_of_instr hpc hword

/-- Settles O7: the advance is the unknown word's only change but for the response. -/
theorem unknownWordOnlyAdvancesPc : Obligations.UnknownWordOnlyAdvancesPc :=
  fun _ hpc hword => step_of_unknown hpc hword

theorem State.fetch_of_le {s : State} (hpc : s.pc.toNat + 1 ≤ 0xFFF) : s.fetch = .word s.wordAtPc := by
  rcases s.fetch_cases with ⟨-, hfetch⟩ | ⟨hout, -⟩
  · exact hfetch
  · omega

/-- R121: the first address above 0xFFF among PC and PC + 1, where PC can fetch nothing. -/
theorem fetchFault_bad {pc : Nat} (hpc : 0xFFF < pc + 1) : max pc 0x1000 = if 0xFFF < pc then pc else 0x1000 := by
  split <;> omega

/-- Latching a record again changes nothing more. -/
theorem State.latch_latch (s : State) (r : FaultRecord) : (s.latch r).latch r = s.latch r := by
  unfold State.latch
  cases s.fault <;> rfl

/-- Past the end of memory a TICK leaves a state in which every later TICK answers that state again (R121). -/
theorem step_fetchFault_again {s : State} (hpc : 0xFFF < s.pc.toNat + 1) :
    step (s.fetchFault (max s.pc.toNat 0x1000)) = .next (s.fetchFault (max s.pc.toNat 0x1000)) :=
  have hstep := step_of_fetchFault (s := s.fetchFault (max s.pc.toNat 0x1000)) hpc
  hstep.trans (congrArg _ (s.latch_latch _))

/-- Settles O8: inside memory the fetch finds the word; past its end the TICK latches the record, and does so again. -/
theorem fetchPastTheEndFaults : Obligations.FetchPastTheEndFaults := by
  refine fun s => ⟨State.fetch_of_le, fun hpc =>
    ⟨_, rfl, _, step_of_fetchFault hpc, ?_, step_fetchFault_again hpc⟩⟩
  rw [← fetchFault_bad hpc]
  exact s.latch_eq _

/-! ### The response -/

/-- R125, R126: an instruction answers with a fault, or with `Ok(changed)`, where `changed` is for CLS and DRW alone. -/
theorem exec_response (i : Instr) (s : State) : ∃ t, exec i s = .next t ∧
    ((∃ r, t.response = some (.fault r)) ∨
      ∃ changed, t.response = some (.ok changed) ∧
        (changed = true ↔ i = .cls ∨ ∃ x y n, i = .drw x y n)) := by
  rcases exec_cases i s with ⟨changed, u, hdone, hchanged, -, -, -⟩ | ⟨kind, bad, hraise⟩
  · exact ⟨_, hdone, .inr ⟨changed, rfl, hchanged⟩⟩
  · exact ⟨_, hraise, .inl ⟨_, rfl⟩⟩

theorem step_response (s : State) : ∃ t r, step s = .next t ∧ t.response = some r := by
  rcases step_cases s with ⟨-, hstep⟩ | ⟨-, i, -, hstep⟩ | ⟨-, w, -, hstep⟩ <;> rw [hstep]
  · exact ⟨_, _, rfl, rfl⟩
  · obtain ⟨t, ht, ⟨r, hr⟩ | ⟨changed, hok, -⟩⟩ := exec_response i s.advance
    · exact ⟨t, _, ht, hr⟩
    · exact ⟨t, _, ht, hok⟩
  · exact ⟨_, _, rfl, rfl⟩

/-- R266: with no key pressed, FX0A takes PC back by 2 and does nothing else. -/
theorem exec_ldVxK_of_no_key (x : Nibble) {s : State} (hkeys : ∀ k, s.keyPressed k = false) :
    exec (.ldVxK x) s = complete false (s.setPc (s.pc - 2)) := by
  have hnone : s.firstPressed = none := State.firstPressed_eq_none_iff.2 hkeys
  simp only [exec, execLdVxK, hnone]

/-- Settles O10: each way a TICK goes holds a response, and the wait of FX0A undoes the PC advance of its own fetch. -/
theorem everyTickCompletesWithAResponse : Obligations.EveryTickCompletesWithAResponse := by
  refine ⟨step_response, fun s x hpc hword hkeys => ?_⟩
  have hback : s.pc + 2 - 2 = s.pc := BitVec.add_sub_cancel _ _
  calc step s = exec (.ldVxK x) s.advance := step_of_instr hpc hword
    _ = complete false (s.advance.setPc (s.pc + 2 - 2)) := exec_ldVxK_of_no_key x hkeys
    _ = .next { s with response := some (.ok false) } := by rw [hback]; rfl

/-! ### No instruction reads the latch or the last response -/

/-- The state with another latch and another last response, the two outputs it keeps (R33, R50). -/
def State.setOutputs (s : State) (f : Option FaultRecord) (r : Option TickResponse) : State :=
  { s with fault := f, response := r }

section
variable (i : Instr) (s : State) (f : Option FaultRecord) (r : Option TickResponse)

@[simp] theorem State.setOutputs_stack : (s.setOutputs f r).stack = s.stack := rfl

@[simp] theorem State.setOutputs_pc : (s.setOutputs f r).pc = s.pc := rfl

@[simp] theorem State.setOutputs_firstPressed : (s.setOutputs f r).firstPressed = s.firstPressed := rfl

theorem State.push_setOutputs (w : Word) : (s.setOutputs f r).push w = (s.push w).map (·.setOutputs f r) := by
  unfold State.push
  rw [State.setOutputs_stack, apply_ite (Option.map _)]
  rfl

theorem State.pop_setOutputs : (s.setOutputs f r).pop = s.pop.map fun p => (p.1, p.2.setOutputs f r) := by
  unfold State.pop
  rw [State.setOutputs_stack]
  cases s.stack.getLast? <;> rfl

/-- The results `a` from `s` and `b` from `s` with other outputs are of one kind: both complete alike, the latch
untouched, or both raise the same fault of the instruction `i`. -/
def AnswersAlike (a b : Result) : Prop :=
  (∃ changed t, a = complete changed t ∧ b = complete changed (t.setOutputs f r) ∧ t.fault = s.fault) ∨
    ∃ kind bad, a = raise i kind bad s ∧ b = raise i kind bad (s.setOutputs f r)

theorem answersAlike_afterCheck (check : Option AccessFault) (changed : Bool) {t : State} (ht : t.fault = s.fault) :
    AnswersAlike i s f r (afterCheck i check s (complete changed t))
      (afterCheck i check (s.setOutputs f r) (complete changed (t.setOutputs f r))) := by
  cases check with
  | none => exact .inl ⟨changed, t, rfl, rfl, ht⟩
  | some g => exact .inr ⟨g.kind, some g.bad, rfl, rfl⟩

theorem answersAlike_skipOnKey (x : Nibble) (wanted : Bool) :
    AnswersAlike i s f r (skipOnKey i x wanted s) (skipOnKey i x wanted (s.setOutputs f r)) := by
  have hkey : resolveKey (s.setOutputs f r).cfg.keyIndexPolicy ((s.setOutputs f r).readV x) =
      resolveKey s.cfg.keyIndexPolicy (s.readV x) := rfl
  unfold skipOnKey
  rw [hkey]
  cases resolveKey s.cfg.keyIndexPolicy (s.readV x) with
  | none => exact .inr ⟨_, _, rfl, rfl⟩
  | some k => exact .inl ⟨false, _, rfl, rfl, rfl⟩

/-- INVERSION OF TWO RUNS: what an instruction does is the same whatever the latch and the last response hold. -/
theorem exec_setOutputs : AnswersAlike i s f r (exec i s) (exec i (s.setOutputs f r)) := by
  cases i with
  | ret =>
    simp only [exec, execRet, State.pop_setOutputs]
    cases hpop : s.pop with
    | none => exact .inr ⟨_, _, rfl, rfl⟩
    | some p =>
      obtain ⟨l, -, hl⟩ := State.pop_eq_some_iff.1 hpop
      have hfault : p.2.fault = s.fault := by rw [hl, State.setStack_fault]
      exact .inl ⟨false, _, rfl, rfl, hfault⟩
  | call nnn =>
    simp only [exec, execCall, State.setOutputs_pc, State.push_setOutputs]
    cases hpush : s.push s.pc with
    | none => exact .inr ⟨_, _, rfl, rfl⟩
    | some t =>
      obtain ⟨-, hl⟩ := State.push_eq_some_iff.1 hpush
      have hfault : t.fault = s.fault := by rw [hl, State.setStack_fault]
      exact .inl ⟨false, _, rfl, rfl, hfault⟩
  | drw x y n => exact answersAlike_afterCheck _ s f r _ true rfl
  | ldBVx x => exact answersAlike_afterCheck _ s f r _ false rfl
  | storeRegs x => exact answersAlike_afterCheck _ s f r _ false rfl
  | loadRegs x => exact answersAlike_afterCheck _ s f r _ false rfl
  | skp x => exact answersAlike_skipOnKey _ s f r x true
  | sknp x => exact answersAlike_skipOnKey _ s f r x false
  | ldVxK x =>
    simp only [exec, execLdVxK, State.setOutputs_firstPressed]
    cases s.firstPressed <;> exact .inl ⟨false, _, rfl, rfl, rfl⟩
  | _ => exact .inl ⟨_, _, rfl, rfl, rfl⟩

end

/-- R50: the response is an output only; the instruction replaces it, whatever it was. -/
theorem exec_other_response (i : Instr) (s : State) (r : Option TickResponse) :
    exec i { s with response := r } = exec i s := by
  rcases exec_setOutputs i s s.fault r with ⟨changed, t, hrun, hother, hfault⟩ | ⟨kind, bad, hrun, hother⟩
  · have hsame : complete changed (t.setOutputs s.fault r) = complete changed t := by rw [← hfault]; rfl
    exact hother.trans (hsame.trans hrun.symm)
  · exact hother.trans hrun.symm

/-- Settles O11: the response of each instruction, and the two runs with different last responses. -/
theorem changedIsTrueExactlyForClearAndDraw : Obligations.ChangedIsTrueExactlyForClearAndDraw :=
  ⟨exec_response, exec_other_response⟩

/-- R129: from two states that differ in the latch, an instruction answers two states that differ in the latch. -/
theorem exec_other_latch (i : Instr) (s : State) (f : Option FaultRecord) : ∃ t u,
    exec i s = .next t ∧ exec i { s with fault := f } = .next u ∧ { u with fault := t.fault } = t := by
  rcases exec_setOutputs i s f s.response with ⟨changed, t, hrun, hother, -⟩ | ⟨kind, bad, hrun, hother⟩
  · exact ⟨_, _, hrun, hother, rfl⟩
  · exact ⟨_, _, hrun, hother, rfl⟩

/-- Settles O15: both runs fetch the same, and each way a TICK goes differs in the latch alone. -/
theorem latchDoesNotSteerExecution : Obligations.LatchDoesNotSteerExecution := by
  intro s f
  rcases step_cases s with ⟨hpc, hstep⟩ | ⟨hpc, i, hword, hstep⟩ | ⟨hpc, w, hword, hstep⟩
  · exact ⟨_, _, hstep, step_of_fetchFault hpc, rfl⟩
  · obtain ⟨t, u, ht, hu, hsame⟩ := exec_other_latch i s.advance f
    exact ⟨t, u, hstep.trans ht, (step_of_instr (s := { s with fault := f }) hpc hword).trans hu, hsame⟩
  · exact ⟨_, _, hstep, step_of_unknown hpc hword, rfl⟩

end Sys2Proof.Machine

/-! Control flow (41_flow.md): the meanings on each side of their guard, their frames, and the round trip of CALL and RET. -/

namespace Sys2Proof.Machine

section
variable {s : State}

/-! ### RET and CALL on each side of their guard (R141, R142, R143, R145) -/

theorem exec_ret_of_stack {l : List Word} {w : Word} (hstack : s.stack = l ++ [w]) :
    exec .ret s = complete false ((s.setStack l).setPc w) := by
  have hpop : s.pop = some (w, s.setStack l) := State.pop_eq_some_iff.2 ⟨l, hstack, rfl⟩
  simp only [exec, execRet, hpop]

theorem exec_ret_of_empty (hstack : s.stack = []) : exec .ret s = raise .ret .stackUnderflow none s := by
  have hpop : s.pop = none := State.pop_eq_none_iff.2 hstack
  simp only [exec, execRet, hpop]

theorem exec_call_of_room (nnn : Addr12) (hroom : s.stack.length < stackCap) :
    exec (.call nnn) s = complete false ((s.setStack (s.stack ++ [s.pc])).setPc (addrOperand nnn)) := by
  have hpush : s.push s.pc = some (s.setStack (s.stack ++ [s.pc])) := State.push_eq_some_iff.2 ⟨hroom, rfl⟩
  simp only [exec, execCall, hpush]

theorem exec_call_of_full (nnn : Addr12) (hfull : stackCap ≤ s.stack.length) :
    exec (.call nnn) s = raise (.call nnn) .stackOverflow none s := by
  have hpush : s.push s.pc = none := State.push_eq_none_iff.2 hfull
  simp only [exec, execCall, hpush]

/-! ### What a change of PC and of the stack leaves unchanged -/

theorem onlyTouches_setPc (s : State) (w : Word) (r : TickResponse) :
    OnlyTouches { pc := true } s ((s.setPc w).respond r) where
  regs _ _ := rfl
  i _ := rfl
  pc := nofun
  stack _ := rfl
  dt _ := rfl
  st _ := rfl
  disp _ := rfl
  fault _ := rfl
  draws _ := rfl
  key := rfl
  cfg := rfl
  memory _ _ := rfl

theorem onlyTouches_setStack_setPc (s : State) (l : List Word) (w : Word) (r : TickResponse) :
    OnlyTouches { pc := true, stack := true } s (((s.setStack l).setPc w).respond r) :=
  { onlyTouches_setPc (s.setStack l) w r with stack := nofun }

/-! ### The skips (R152) -/

theorem State.skipIf_pc (s : State) {cond : Bool} {p : Prop} [Decidable p] (h : cond = true ↔ p) :
    (s.skipIf cond).pc = if p then s.pc + 2 else s.pc :=
  if_congr h rfl rfl

/-- An instruction that completes with a skip moves PC by 2 exactly where the skip's condition holds, and nothing else. -/
theorem exec_skips {i : Instr} {cond : Bool} {p : Prop} [Decidable p]
    (hexec : exec i s = complete false (s.skipIf cond)) (h : cond = true ↔ p) :
    ∃ t, exec i s = .next t ∧ t.response = some (.ok false) ∧ t.pc = (if p then s.pc + 2 else s.pc) ∧
      OnlyTouches { pc := true } s t :=
  ⟨_, hexec, rfl, s.skipIf_pc h, onlyTouches_setPc s _ _⟩

end

/-! ### The low nibble of families 5 and 9 (90 C7) -/

/-- A low nibble other than 0 makes the word of its family unknown. -/
theorem decodeLowNibble0_formatXYN {f : Word} (i : Instr) (x y : Nibble) {n : Nibble} (hf : fieldN f = 0) (hn : n ≠ 0) :
    decodeLowNibble0 (formatXYN f x y n) i = .unknown (formatXYN f x y n) := by
  have hN : fieldN (formatXYN f x y n) = n := by
    rw [fieldN_formatXYN, hf]
    exact BitVec.zero_or
  exact if_neg (hN.trans_ne hn)

theorem decode_formatXYN_unknown {f : Word} (hf : f = 0x5000 ∨ f = 0x9000) (x y : Nibble) {n : Nibble} (hn : n ≠ 0) :
    decode (formatXYN f x y n) = .unknown (formatXYN f x y n) := by
  rcases hf with rfl | rfl
  all_goals
    simp only [decode, fieldF_formatXYN]
    exact decodeLowNibble0_formatXYN _ x y rfl hn

/-! ### The obligations -/

/-- Settles O25. -/
theorem returnPopsTheTopAddress : Obligations.ReturnPopsTheTopAddress := by
  refine ⟨decode_encode .ret, fun s l w hstack => ?_, fun s hstack => ?_⟩
  · exact ⟨_, exec_ret_of_stack hstack, rfl, rfl, rfl, onlyTouches_setStack_setPc s l w _⟩
  · rw [exec_ret_of_empty hstack]
    exact raise_spec .ret .stackUnderflow none s

/-- Settles O26. -/
theorem jumpSetsPc : Obligations.JumpSetsPc :=
  fun nnn s => ⟨decode_encode (.jp nnn), _, rfl, rfl, rfl, onlyTouches_setPc s _ _⟩

/-- Settles O27. -/
theorem callPushesThePostFetchPc : Obligations.CallPushesThePostFetchPc := by
  refine fun nnn s => ⟨decode_encode (.call nnn), fun hroom => ?_, fun hfull => ?_⟩
  · exact ⟨_, exec_call_of_room nnn hroom, rfl, rfl, rfl, onlyTouches_setStack_setPc s _ _ _⟩
  · rw [exec_call_of_full nnn hfull.ge]
    exact raise_spec (.call nnn) .stackOverflow none s

/-- R146: the two operands are widened before they are added, so the sum keeps its bit 12. -/
theorem addrOperand_add_zext16_toNat (nnn : Addr12) (b : Byte) :
    (addrOperand nnn + zext16 b).toNat = (nnn.toNat + b.toNat) % 65536 := by
  have hnnn : (addrOperand nnn).toNat = nnn.toNat := BitVec.toNat_setWidth_of_le (by decide)
  have hb : (zext16 b).toNat = b.toNat := BitVec.toNat_setWidth_of_le (by decide)
  rw [BitVec.toNat_add, hnnn, hb]

/-- Settles O28. -/
theorem jumpWithOffsetAddsV0 : Obligations.JumpWithOffsetAddsV0 :=
  fun nnn s => ⟨decode_encode (.jpV0 nnn), _, rfl, rfl, addrOperand_add_zext16_toNat nnn _, onlyTouches_setPc s _ _⟩

/-- Settles O29: each of the four is a skip on its own comparison. -/
theorem compareSkipsMovePcByTwo : Obligations.CompareSkipsMovePcByTwo := by
  refine fun x y nn s => ⟨?seImm, ?sneImm, ?seReg, ?sneReg⟩
  case seImm => exact ⟨decode_encode (.seImm x nn), exec_skips rfl beq_iff_eq⟩
  case sneImm => exact ⟨decode_encode (.sneImm x nn), exec_skips rfl bne_iff_ne⟩
  case seReg =>
    exact ⟨decode_encode (.seReg x y), fun _ hn => decode_formatXYN_unknown (.inl rfl) x y hn, exec_skips rfl beq_iff_eq⟩
  case sneReg =>
    exact ⟨decode_encode (.sneReg x y), fun _ hn => decode_formatXYN_unknown (.inr rfl) x y hn, exec_skips rfl bne_iff_ne⟩

/-- Settles O30: CALL leaves its post-fetch PC on top of the stack, and RET finds it there, whatever PC is by then. -/
theorem returnUndoesCall : Obligations.ReturnUndoesCall := by
  intro nnn s hroom
  exact ⟨_, _, exec_call_of_room nnn hroom, exec_ret_of_stack (l := s.stack) (w := s.pc) rfl, rfl⟩

end Sys2Proof.Machine

/-! Registers and ALU (42_alu.md): what an instruction that writes one register, or one register and then the flag, leaves
in the registers and leaves unchanged; the values of the flags and of the shifts. -/

namespace Sys2Proof.Machine

section
variable {s : State} {i : Instr} {x : Nibble} {b : Byte}

/-! ### One register written (R171 to R176, R190) -/

theorem onlyTouches_writeV (s : State) (x : Nibble) (b : Byte) (r : TickResponse) :
    OnlyTouches { regs := [x] } s ((s.writeV x b).respond r) where
  regs _ hy := State.readV_writeV_other s x _ b (List.ne_of_not_mem_cons hy)
  i _ := rfl
  pc _ := rfl
  stack _ := rfl
  dt _ := rfl
  st _ := rfl
  disp _ := rfl
  fault _ := rfl
  draws _ := rfl
  key := rfl
  cfg := rfl
  memory _ _ := rfl

/-- An instruction that completes with one register written. -/
theorem exec_writes (hexec : exec i s = complete false (s.writeV x b)) :
    ∃ t, exec i s = .next t ∧ t.response = some (.ok false) ∧ t.readV x = b ∧ OnlyTouches { regs := [x] } s t :=
  ⟨_, hexec, rfl, s.readV_writeV_same x b, onlyTouches_writeV s x b _⟩

/-! ### One register written and then the flag (R170) -/

theorem State.writeResultThenFlag_readV_VF (s : State) (x : Nibble) (b : Byte) (f : Bool) :
    (s.writeResultThenFlag x b f).readV VF = flagByte f :=
  State.readV_writeV_same _ VF _

theorem State.writeResultThenFlag_readV_result (s : State) (hx : x ≠ VF) (b : Byte) (f : Bool) :
    (s.writeResultThenFlag x b f).readV x = b :=
  (State.readV_writeV_other _ VF x _ hx).trans (s.readV_writeV_same x b)

theorem onlyTouches_writeResultThenFlag (s : State) (x : Nibble) (b : Byte) (f : Bool) (r : TickResponse) :
    OnlyTouches { regs := [x, 0xF] } s ((s.writeResultThenFlag x b f).respond r) :=
  { onlyTouches_writeV s x b r with
    regs := fun y hy =>
      have hx : y ≠ x := List.ne_of_not_mem_cons hy
      have hvf : y ≠ VF := List.ne_of_not_mem_cons (List.not_mem_of_not_mem_cons hy)
      (State.readV_writeV_other _ VF y _ hvf).trans (s.readV_writeV_other x y b hx) }

/-- An instruction that completes with a result and then a flag: VF as destination ends holding the flag. -/
theorem exec_writesResultThenFlag {f : Bool} {n : Nat} {v : Byte}
    (hexec : exec i s = complete false (s.writeResultThenFlag x b f)) (hb : b.toNat = n) (hf : flagByte f = v) :
    ∃ t, exec i s = .next t ∧ t.response = some (.ok false) ∧ (x ≠ 0xF → (t.readV x).toNat = n) ∧
      t.readV 0xF = v ∧ OnlyTouches { regs := [x, 0xF] } s t := by
  refine ⟨_, hexec, rfl, fun hx => ?result, ?flag, onlyTouches_writeResultThenFlag s x b f _⟩
  case result => exact (congrArg BitVec.toNat (s.writeResultThenFlag_readV_result hx b f)).trans hb
  case flag => exact (s.writeResultThenFlag_readV_VF x b f).trans hf

end

/-! ### The values: differences, shifts and flags -/

theorem flagByte_carryOut (a b : Byte) : flagByte (carryOut a b) = if 255 < a.toNat + b.toNat then 1 else 0 :=
  if_congr decide_eq_true_iff rfl rfl

theorem flagByte_noBorrow (a b : Byte) : flagByte (noBorrow a b) = if a.toNat ≥ b.toNat then 1 else 0 :=
  if_congr decide_eq_true_iff rfl rfl

theorem flagByte_toNat (f : Bool) : (flagByte f).toNat = f.toNat := by
  cases f <;> rfl

theorem flagByte_lowBitOut_toNat (b : Byte) : (flagByte (lowBitOut b)).toNat = b.toNat % 2 := by
  rw [flagByte_toNat, lowBitOut, BitVec.getLsbD, Nat.toNat_testBit, Nat.pow_zero, Nat.div_one]

theorem flagByte_highBitOut_toNat (b : Byte) : (flagByte (highBitOut b)).toNat = b.toNat / 128 := by
  have hlt : b.toNat / 128 < 2 := Nat.div_lt_of_lt_mul b.isLt
  rw [flagByte_toNat, highBitOut, BitVec.getLsbD, Nat.toNat_testBit]
  exact Nat.mod_eq_of_lt hlt

theorem sub_toNat_eq (a b : Byte) : (a - b).toNat = (a.toNat + 256 - b.toNat) % 256 := by
  have hlt := b.isLt
  rw [BitVec.toNat_sub]
  congr 1
  omega

theorem ushiftRight_one_toNat (b : Byte) : (b >>> 1).toNat = b.toNat / 2 := by
  rw [BitVec.toNat_ushiftRight, Nat.shiftRight_one]

theorem shiftLeft_one_toNat (b : Byte) : (b <<< 1).toNat = b.toNat * 2 % 256 := by
  rw [BitVec.toNat_shiftLeft, Nat.shiftLeft_eq, Nat.pow_one]

/-! ### The obligations -/

/-- Settles O31. -/
theorem loadsWriteTheirDestination : Obligations.LoadsWriteTheirDestination :=
  fun x y nn _ => ⟨⟨decode_encode (.ldImm x nn), exec_writes rfl⟩, decode_encode (.ldReg x y), exec_writes rfl⟩

/-- Settles O32. -/
theorem addImmediateRecordsNoCarry : Obligations.AddImmediateRecordsNoCarry := by
  intro x nn s
  obtain ⟨t, ht, hok, hx, hframe⟩ := exec_writes (i := .addImm x nn) (s := s) rfl
  exact ⟨decode_encode (.addImm x nn), t, ht, hok, by rw [hx, BitVec.toNat_add], hframe⟩

/-- Settles O33. -/
theorem logicWritesOnlyItsDestination : Obligations.LogicWritesOnlyItsDestination := by
  refine fun x y s => ⟨?or, ?and, ?xor⟩
  case or => exact ⟨decode_encode (.orReg x y), exec_writes rfl⟩
  case and => exact ⟨decode_encode (.andReg x y), exec_writes rfl⟩
  case xor => exact ⟨decode_encode (.xorReg x y), exec_writes rfl⟩

/-- Settles O34. -/
theorem addSetsTheCarry : Obligations.AddSetsTheCarry :=
  fun x y _ => ⟨decode_encode (.addReg x y),
    exec_writesResultThenFlag rfl (BitVec.toNat_add _ _) (flagByte_carryOut _ _)⟩

/-- Settles O35. -/
theorem subtractSetsNotBorrow : Obligations.SubtractSetsNotBorrow := by
  refine fun x y s => ⟨?sub, ?subn⟩
  case sub =>
    exact ⟨decode_encode (.subReg x y), exec_writesResultThenFlag rfl (sub_toNat_eq _ _) (flagByte_noBorrow _ _)⟩
  case subn =>
    exact ⟨decode_encode (.subnReg x y), exec_writesResultThenFlag rfl (sub_toNat_eq _ _) (flagByte_noBorrow _ _)⟩

/-- Settles O36: the source, `V[X]` or `V[Y]`, is the same for the result and for the flag, so the quirk needs no case. -/
theorem shiftsMoveOneBitIntoVF : Obligations.ShiftsMoveOneBitIntoVF := by
  refine fun x y s => ⟨?shr, ?shl⟩
  case shr =>
    obtain ⟨t, ht, hok, hres, hvf, hframe⟩ :=
      exec_writesResultThenFlag (i := .shr x y) (s := s) rfl (ushiftRight_one_toNat _) rfl
    exact ⟨decode_encode (.shr x y), t, ht, hok, hres, hvf ▸ flagByte_lowBitOut_toNat _, hframe⟩
  case shl =>
    obtain ⟨t, ht, hok, hres, hvf, hframe⟩ :=
      exec_writesResultThenFlag (i := .shl x y) (s := s) rfl (shiftLeft_one_toNat _) rfl
    exact ⟨decode_encode (.shl x y), t, ht, hok, hres, hvf ▸ flagByte_highBitOut_toNat _, hframe⟩

/-- Settles O37: the draw is a free byte, and the mask alone clears the bits outside NN. -/
theorem randomByteIsMasked : Obligations.RandomByteIsMasked := by
  intro x nn s
  have hx : (s.writeV x (s.randomByte &&& nn)).readV x = Config.freeByte s.draws &&& nn := s.readV_writeV_same x _
  refine ⟨decode_encode (.rnd x nn), _, rfl, rfl, hx, rfl, fun k hk => ?masked, ?frame⟩
  case masked => rw [State.respond_readV, State.countDraw_readV, hx, BitVec.getLsbD_and, hk, Bool.and_false]
  case frame => exact { onlyTouches_writeV s x (s.randomByte &&& nn) (.ok false) with draws := nofun }

end Sys2Proof.Machine

/-! Display (43_display.md): the frames of CLS, FX29 and DRW, a draw on each side of its bound, its pixels and its flag, and
the default font. -/

namespace Sys2Proof.Machine

/-! ### What a changed index or display leaves unchanged -/

/-- A response is no part of the state that the frame speaks of. -/
theorem onlyTouches_respond (s : State) (r : TickResponse) : OnlyTouches {} s (s.respond r) where
  regs _ _ := rfl
  i _ := rfl
  pc _ := rfl
  stack _ := rfl
  dt _ := rfl
  st _ := rfl
  disp _ := rfl
  fault _ := rfl
  draws _ := rfl
  key := rfl
  cfg := rfl
  memory _ _ := rfl

theorem onlyTouches_setI (s : State) (w : Word) (r : TickResponse) :
    OnlyTouches { i := true } s ((s.setI w).respond r) :=
  { onlyTouches_respond (s.setI w) r with i := nofun }

theorem onlyTouches_setDisp (s : State) (d : Display) (r : TickResponse) :
    OnlyTouches { disp := true } s ((s.setDisp d).respond r) :=
  { onlyTouches_respond (s.setDisp d) r with disp := nofun }

theorem onlyTouches_drawSprite (s : State) (x y n : Nibble) (r : TickResponse) :
    OnlyTouches { regs := [0xF], disp := true } s ((s.drawSprite x y n).respond r) :=
  { onlyTouches_writeV (s.setDisp (s.drawSprite x y n).disp) VF _ r with disp := nofun }

/-! ### The blank display (R200, R330) -/

/-- A blank display's framebuffer is BG for every cell. -/
theorem State.readFramebuffer_setDisp_blank (s : State) (height width : Nat) (c : Colours) :
    (s.setDisp (blankDisplay width height)).readFramebuffer c =
      (List.replicate (height * width) [c.bg.r, c.bg.g, c.bg.b, c.bg.a]).flatten := by
  have hoff : pixelBytes c false = [c.bg.r, c.bg.g, c.bg.b, c.bg.a] := rfl
  simp only [State.readFramebuffer, State.setDisp_disp, blankDisplay, List.flatMap_replicate, hoff,
    ← List.flatten_replicate_replicate, List.flatten_flatten, List.map_replicate]

/-! ### A draw (R201 to R205) -/

section
variable {s : State} (x y : Nibble) {n : Nibble}

theorem exec_drw_of_fits (hfits : n = 0 ∨ s.i.toNat + n.toNat - 1 ≤ 0xFFF) :
    exec (.drw x y n) s = complete true (s.drawSprite x y n) := by
  have hcheck : checkRead s.i.toNat n.toNat = none := by
    refine checkRead_eq_none_iff.2 (hfits.imp ?_ ?_)
    · rintro rfl; rfl
    · simp only [memSize]; omega
  simp only [exec, execDrw, hcheck, afterCheck_none]

theorem exec_drw_of_out (hn : n ≠ 0) (hout : 0xFFF < s.i.toNat + n.toNat - 1) :
    exec (.drw x y n) s = raise (.drw x y n) .outOfBounds (some (max s.i.toNat 0x1000)) s := by
  have hpos : 0 < n.toNat := Nat.pos_of_ne_zero (BitVec.toNat_ne.1 hn)
  have hcheck : checkRead s.i.toNat n.toNat = some ⟨.outOfBounds, max s.i.toNat 0x1000⟩ :=
    checkRead_eq_some_iff.2 ⟨⟨hpos, by simp only [memSize]; omega⟩, rfl⟩
  simp only [exec, execDrw, hcheck, afterCheck_some]

/-- R202: on a well-formed configuration the wrapped corner lies on the display. -/
theorem State.sprite_corner_lt (hcfg : s.cfg.wellFormed = true) :
    s.spriteColumn x < s.cfg.width ∧ s.spriteRow y < s.cfg.height := by
  simp only [Config.wellFormed, Bool.and_eq_true, decide_eq_true_eq] at hcfg
  obtain ⟨hwidth, hheight⟩ := hcfg
  exact ⟨Nat.mod_lt _ hwidth, Nat.mod_lt _ hheight⟩

theorem flagByte_eq_zero_or_one (b : Bool) : flagByte b = 0 ∨ flagByte b = 1 := by
  cases b
  · exact .inl rfl
  · exact .inr rfl

theorem flagByte_eq_one_iff {b : Bool} : flagByte b = 1 ↔ b = true := by
  cases b <;> decide

theorem State.drawSprite_readV_VF : (s.drawSprite x y n).readV VF =
    flagByte (s.blitSprite (s.spriteColumn x) (s.spriteRow y) n.toNat).hit :=
  State.readV_writeV_same _ VF _

theorem State.drawSprite_readV_other {r : Nibble} (hr : r ≠ VF) : (s.drawSprite x y n).readV r = s.readV r :=
  State.readV_writeV_other _ VF r _ hr

variable (hs : Display.shaped s.cfg s.disp)
include hs

theorem State.drawSprite_shaped : Display.shaped s.cfg (s.drawSprite x y n).disp := (State.blitSprite_spec hs).1

/-- R203, R204: a pixel of the display after the draw. -/
theorem State.drawSprite_pixel {r c : Nat} (hr : r < s.cfg.height) (hc : c < s.cfg.width) :
    Display.pixel (s.drawSprite x y n).disp r c =
      (Display.pixel s.disp r c ^^ s.spriteBit (s.spriteColumn x) (s.spriteRow y) n.toNat r c) := by
  obtain ⟨-, hpixel, -⟩ := State.blitSprite_spec (x0 := s.spriteColumn x) (y0 := s.spriteRow y) (n := n.toNat) hs
  have hon : decide (r < s.cfg.height ∧ c < s.cfg.width) = true := decide_eq_true ⟨hr, hc⟩
  exact (hpixel r c).trans (by rw [hon, Bool.true_and])

/-- R203: the flag of a draw, by the sprite's bits. -/
theorem State.drawSprite_flag_iff_spriteBit : (s.drawSprite x y n).readV VF = 1 ↔
    ∃ r c, r < s.cfg.height ∧ c < s.cfg.width ∧ Display.pixel s.disp r c = true ∧
      s.spriteBit (s.spriteColumn x) (s.spriteRow y) n.toNat r c = true := by
  obtain ⟨-, -, hhit⟩ := State.blitSprite_spec (x0 := s.spriteColumn x) (y0 := s.spriteRow y) (n := n.toNat) hs
  rw [State.drawSprite_readV_VF, flagByte_eq_one_iff, hhit]
  refine exists_congr fun r => exists_congr fun c => ?_
  rw [and_assoc, and_comm (a := State.spriteBit _ _ _ _ _ _ = true)]

/-- R203: the flag of a draw, by the pixels it turns off. A pixel that was on goes off exactly at a 1 bit. -/
theorem State.drawSprite_flag_iff_pixel : (s.drawSprite x y n).readV VF = 1 ↔
    ∃ r c, r < s.cfg.height ∧ c < s.cfg.width ∧ Display.pixel s.disp r c = true ∧
      Display.pixel (s.drawSprite x y n).disp r c = false := by
  rw [State.drawSprite_flag_iff_spriteBit x y hs]
  refine exists_congr fun r => exists_congr fun c => and_congr_right fun hr => and_congr_right fun hc =>
    and_congr_right fun hon => ?_
  rw [State.drawSprite_pixel x y hs hr hc, hon, Bool.true_xor, Bool.not_eq_false']

end

/-! ### The second draw of the same sprite -/

section
variable {s : State} {x y : Nibble} (n : Nibble)

/-- The state in which the second of two draws executes: the first is done, and PC has moved past its next fetch (R122). -/
def State.drawnOnce (s : State) (x y n : Nibble) : State := ((s.drawSprite x y n).respond (.ok true)).advance

/-- A draw whose registers are not VF leaves its corner, and the sprite itself, in place for a second one. -/
theorem State.drawnOnce_sprite (hx : x ≠ VF) (hy : y ≠ VF) :
    (s.drawnOnce x y n).spriteBit ((s.drawnOnce x y n).spriteColumn x) ((s.drawnOnce x y n).spriteRow y) n.toNat =
      s.spriteBit (s.spriteColumn x) (s.spriteRow y) n.toNat := by
  have hcol : (s.drawnOnce x y n).spriteColumn x = s.spriteColumn x :=
    congrArg (fun b : Byte => b.toNat % s.cfg.width) (State.drawSprite_readV_other x y hx)
  have hrow : (s.drawnOnce x y n).spriteRow y = s.spriteRow y :=
    congrArg (fun b : Byte => b.toNat % s.cfg.height) (State.drawSprite_readV_other x y hy)
  rw [hcol, hrow]
  rfl

variable (hs : Display.shaped s.cfg s.disp) (hx : x ≠ VF) (hy : y ≠ VF)
include hs hx hy

/-- The second draw XORs every pixel with the same bit, so the display comes back. -/
theorem State.drawSprite_drawnOnce_disp : ((s.drawnOnce x y n).drawSprite x y n).disp = s.disp := by
  have hs' : Display.shaped (s.drawnOnce x y n).cfg (s.drawnOnce x y n).disp := State.drawSprite_shaped x y hs
  refine Display.ext_of_pixels (State.drawSprite_shaped x y hs') hs fun r c hr hc => ?_
  calc Display.pixel ((s.drawnOnce x y n).drawSprite x y n).disp r c
      = (Display.pixel (s.drawSprite x y n).disp r c ^^
          s.spriteBit (s.spriteColumn x) (s.spriteRow y) n.toNat r c) := by
        rw [State.drawSprite_pixel x y hs' hr hc, State.drawnOnce_sprite n hx hy]; rfl
    _ = Display.pixel s.disp r c := by
        rw [State.drawSprite_pixel x y hs hr hc, Bool.xor_assoc, Bool.xor_self, Bool.xor_false]

/-- A pixel under a 1 bit is on before the second draw exactly where it was off before the first. -/
theorem State.drawSprite_drawnOnce_flag : ((s.drawnOnce x y n).drawSprite x y n).readV VF = 1 ↔
    ∃ r c, r < s.cfg.height ∧ c < s.cfg.width ∧ Display.pixel s.disp r c = false ∧
      s.spriteBit (s.spriteColumn x) (s.spriteRow y) n.toNat r c = true := by
  have hs' : Display.shaped (s.drawnOnce x y n).cfg (s.drawnOnce x y n).disp := State.drawSprite_shaped x y hs
  rw [State.drawSprite_flag_iff_spriteBit x y hs', State.drawnOnce_sprite n hx hy]
  refine exists_congr fun r => exists_congr fun c => and_congr_right fun hr => and_congr_right fun hc =>
    and_congr_left fun hbit => ?_
  have hpixel : Display.pixel (s.drawnOnce x y n).disp r c = !Display.pixel s.disp r c := by
    rw [← Bool.xor_true, ← hbit]
    exact State.drawSprite_pixel x y hs hr hc
  rw [hpixel, Bool.not_eq_true']

end

/-! ### The font (R210 to R212) -/

theorem glyphAddress_toNat (v : Byte) : (glyphAddress v).toNat = 0x050 + 5 * (v.toNat % 16) := by
  have hlow : v.toNat % 16 < 16 := Nat.mod_lt _ (by decide)
  refine (BitVec.toNat_ofNat _ _).trans (Nat.mod_eq_of_lt ?_)
  simp only [fontBase]
  omega

/-- After RESET every font address reads its byte of the configuration's font (R350). -/
theorem State.fontIntact_afterReset (cfg : Config) (draws : Nat) : (State.afterReset cfg draws).FontIntact :=
  fun _ ha => if_pos ha

/-! ### The obligations -/

/-- Settles O39: the pixels and the flag are those of `State.drawSprite`, on the side of the bound where the check passes. -/
theorem drawXorsTheClippedSprite : Obligations.DrawXorsTheClippedSprite := by
  refine fun x y n s hs => ⟨decode_encode (.drw x y n), fun hfits => ⟨s.sprite_corner_lt x y, ?draw⟩, ?fault⟩
  case draw =>
    have hflag : (s.drawSprite x y n).readV VF = 0 ∨ (s.drawSprite x y n).readV VF = 1 := by
      rw [State.drawSprite_readV_VF]
      exact flagByte_eq_zero_or_one _
    exact ⟨_, exec_drw_of_fits x y hfits, rfl, State.drawSprite_shaped x y hs,
      fun _ _ => State.drawSprite_pixel x y hs, hflag, State.drawSprite_flag_iff_pixel x y hs,
      onlyTouches_drawSprite s x y n _⟩
  case fault =>
    rintro ⟨hn, hout⟩
    rw [exec_drw_of_out x y hn hout]
    exact raise_spec (.drw x y n) .outOfBounds _ s

/-- Settles O40. -/
theorem drawingTwiceRestoresTheDisplay : Obligations.DrawingTwiceRestoresTheDisplay := by
  intro x y n s hs hx hy hfits
  have hsecond := exec_drw_of_fits (s := s.drawnOnce x y n) x y hfits
  refine ⟨(s.drawSprite x y n).respond (.ok true), ((s.drawnOnce x y n).drawSprite x y n).respond (.ok true),
    exec_drw_of_fits x y hfits, ?_, ?_, ?_⟩
  · exact hsecond
  · rw [State.respond_disp]
    exact State.drawSprite_drawnOnce_disp n hs hx hy
  · rw [State.respond_readV]
    exact State.drawSprite_drawnOnce_flag n hs hx hy

/-- Settles O38. -/
theorem clearTurnsEveryPixelOff : Obligations.ClearTurnsEveryPixelOff :=
  ⟨decode_encode .cls, fun s => ⟨_, rfl, rfl, Display.shaped_blank s.cfg, fun _ _ _ _ => Display.pixel_blank _ _ _ _,
    s.readFramebuffer_setDisp_blank _ _, onlyTouches_setDisp s _ _⟩⟩

/-- Settles O42. -/
theorem glyphAddressGoesToIndex : Obligations.GlyphAddressGoesToIndex :=
  fun x s => ⟨decode_encode (.ldFVx x), _, rfl, rfl, glyphAddress_toNat _, onlyTouches_setI s _ _⟩

/-- Settles O43: RESET leaves the configuration's font in place, and the default font is R212's table. -/
theorem resetMemoryHoldsTheDefaultFont : Obligations.ResetMemoryHoldsTheDefaultFont := by
  have hread : ∀ k ∈ List.range 80, State.reset.readMem (0x050 + k) = defaultFont.getD k 0 := by
    intro k hk
    have hlt : k < 80 := List.mem_range.1 hk
    have hfont : inFont (0x050 + k) = true := inFont_iff.2 (by omega)
    exact (State.fontIntact_afterReset _ _ _ hfont).trans (by rw [Nat.add_sub_cancel_left]; rfl)
  unfold Obligations.ResetMemoryHoldsTheDefaultFont
  rw [List.map_congr_left hread]
  decide

end Sys2Proof.Machine

/-! Index register and memory transfers (44_index_memory.md): the checks in the numbers of R63 and R64, what a store, a load
and the quirk's increment leave in each part of the state, and the flag of FX1E. -/

namespace Sys2Proof.Machine

/-! ### The checks of a transfer whose last byte lies at `base + last` (R63, R64, R232) -/

section
variable {policy : FontWritePolicy} {base last : Nat}

theorem checkRead_of_fits (hfits : base + last ≤ 0xFFF) : checkRead base (last + 1) = none :=
  checkRead_eq_none_iff.2 (.inr (by simp only [memSize]; omega))

theorem checkRead_of_out (hout : 0xFFF < base + last) :
    checkRead base (last + 1) = some ⟨.outOfBounds, max base 0x1000⟩ :=
  checkRead_eq_some_iff.2 ⟨⟨by omega, by simp only [memSize]; omega⟩, rfl⟩

theorem checkWrite_of_fits (hfits : base + last ≤ 0xFFF)
    (hfont : policy = .fault → base + last < 0x050 ∨ 0x09F < base) : checkWrite policy base (last + 1) = none := by
  refine checkWrite_eq_none_iff.2 ⟨checkRead_eq_none_iff.1 (checkRead_of_fits hfits), fun hpolicy a hlow hhigh => ?_⟩
  have hoff := hfont hpolicy
  exact inFont_eq_false_iff.2 (by omega)

theorem checkWrite_of_out (hout : 0xFFF < base + last) :
    checkWrite policy base (last + 1) = some ⟨.outOfBounds, max base 0x1000⟩ :=
  checkWrite_eq_some_iff.2 (.inl (checkRead_of_out hout))

theorem checkWrite_of_font (hfits : base + last ≤ 0xFFF) (hpolicy : policy = .fault) (hlow : 0x050 ≤ base + last)
    (hhigh : base ≤ 0x09F) : checkWrite policy base (last + 1) = some ⟨.readOnly, max base 0x050⟩ := by
  have hhit : firstFontHit base (last + 1) = some (max base 0x050) :=
    (firstFontHit_def base (last + 1)).trans (if_pos (by omega))
  exact checkWrite_eq_some_iff.2 (.inr ⟨checkRead_of_fits hfits, hpolicy, _, hhit, rfl⟩)

end

/-! ### An instruction that stores after the check (FX33, FX55) -/

section
variable {i : Instr} {s u : State} {last : Nat}
variable (hexec : exec i s =
  afterCheck i (checkWrite s.cfg.fontWritePolicy s.i.toNat (last + 1)) s (complete false u))
include hexec

theorem exec_store_of_fits (hfits : s.i.toNat + last ≤ 0xFFF)
    (hfont : s.cfg.fontWritePolicy = .fault → s.i.toNat + last < 0x050 ∨ 0x09F < s.i.toNat) :
    exec i s = complete false u := by
  rw [hexec, checkWrite_of_fits hfits hfont, afterCheck_none]

theorem exec_store_of_out (hout : 0xFFF < s.i.toNat + last) :
    ∃ t, exec i s = .next t ∧ FaultRaised (encode i) .outOfBounds (some (max s.i.toNat 0x1000)) s t := by
  rw [hexec, checkWrite_of_out hout, afterCheck_some]
  exact raise_spec i .outOfBounds _ s

theorem exec_store_of_font (hfits : s.i.toNat + last ≤ 0xFFF) (hpolicy : s.cfg.fontWritePolicy = .fault)
    (hlow : 0x050 ≤ s.i.toNat + last) (hhigh : s.i.toNat ≤ 0x09F) :
    ∃ t, exec i s = .next t ∧ FaultRaised (encode i) .readOnly (some (max s.i.toNat 0x050)) s t := by
  rw [hexec, checkWrite_of_font hfits hpolicy hlow hhigh, afterCheck_some]
  exact raise_spec i .readOnly _ s

end

/-! ### The bytes a store leaves, and its frame -/

section
variable (s : State) (base : Nat) (bs : List Byte)

/-- R64: under policy Ignore a font byte keeps its value. -/
theorem State.storeBytes_readMem_kept {a : Nat} (hfont : 0x050 ≤ a ∧ a ≤ 0x09F)
    (hpolicy : s.cfg.fontWritePolicy = .ignore) : (s.storeBytes base bs).readMem a = s.readMem a := by
  have hin : inFont a = true := inFont_iff.2 (by omega)
  rw [State.storeBytes_readMem, dif_neg fun h => h.2 ⟨hin, hpolicy⟩]

theorem State.storeBytes_readMem_stored {k : Nat} (hk : k < bs.length)
    (hstored : ¬((0x050 ≤ base + k ∧ base + k ≤ 0x09F) ∧ s.cfg.fontWritePolicy = .ignore)) :
    (s.storeBytes base bs).readMem (base + k) = bs[k] := by
  have hkept : ¬(inFont (base + k) = true ∧ s.cfg.fontWritePolicy = .ignore) := by
    rw [inFont_iff]
    exact mt (And.imp_left fun h => by omega) hstored
  rw [State.storeBytes_readMem, dif_pos ⟨by omega, hkept⟩]
  simp only [Nat.add_sub_cancel_left]

theorem State.storeBytes_readMem_outside {a : Nat} (ha : a < base ∨ base + bs.length ≤ a) :
    (s.storeBytes base bs).readMem a = s.readMem a := by
  rw [State.storeBytes_readMem, dif_neg fun h => by omega]

theorem onlyTouches_storeBytes {n : Nat} (hn : bs.length = n) (r : TickResponse) :
    OnlyTouches { mem := (base, n) } s ((s.storeBytes base bs).respond r) :=
  { onlyTouches_respond (s.storeBytes base bs) r with
    memory := fun _ ha => s.storeBytes_readMem_outside base bs (hn ▸ ha) }

end

theorem bcdDigits_length (v : Byte) : (bcdDigits v).length = 3 := rfl

/-- R233: the digits of a byte by their place. -/
theorem bcdDigits_getElem_toNat (v : Byte) {k : Nat} (hk : k < 3) :
    ((bcdDigits v)[k]'hk).toNat =
      if k = 0 then v.toNat / 100 else if k = 1 then v.toNat / 10 % 10 else v.toNat % 10 := by
  have hv := v.isLt
  match k, hk with
  | 0, _ | 1, _ | 2, _ => exact (BitVec.toNat_ofNat _ _).trans (Nat.mod_eq_of_lt (by omega))

theorem State.registersUpTo_lt {s : State} {x k : Nibble} (hk : k.toNat ≤ x.toNat) :
    k.toNat < (s.registersUpTo x).length :=
  (s.registersUpTo_length x).symm ▸ Nat.lt_succ_of_le hk

/-- R234: the `k`-th byte captured is `V[k]`. -/
theorem State.registersUpTo_getElem (s : State) {x k : Nibble} (hk : k.toNat ≤ x.toNat) :
    (s.registersUpTo x)[k.toNat]'(State.registersUpTo_lt hk) = s.readV k := by
  simp only [State.registersUpTo, List.getElem_map, List.getElem_range, BitVec.ofNat_toNat, BitVec.setWidth_eq]

/-! ### A load (R235) -/

section
variable {s : State} {x : Nibble}

theorem exec_loadRegs_of_fits (hfits : s.i.toNat + x.toNat ≤ 0xFFF) :
    exec (.loadRegs x) s = complete false ((s.loadBytes s.i.toNat (x.toNat + 1)).indexAfterTransfer x) := by
  simp only [exec, execLoadRegs, checkRead_of_fits hfits, afterCheck_none]

theorem exec_loadRegs_of_out (hout : 0xFFF < s.i.toNat + x.toNat) :
    exec (.loadRegs x) s = raise (.loadRegs x) .outOfBounds (some (max s.i.toNat 0x1000)) s := by
  simp only [exec, execLoadRegs, checkRead_of_out hout, afterCheck_some]

end

section
variable (s : State) (x : Nibble)

theorem State.loadBytes_readV_upTo (base : Nat) (k : Nibble) :
    (s.loadBytes base (x.toNat + 1)).readV k =
      if k.toNat ≤ x.toNat then s.readMem (base + k.toNat) else s.readV k :=
  (s.loadBytes_readV base _ (Nat.succ_le_of_lt x.isLt) k).trans (if_congr Nat.lt_succ_iff rfl rfl)

/-- R22: a load leaves the registers that are not among the destinations of FX65. -/
theorem onlyTouches_loadBytes (r : TickResponse) :
    OnlyTouches { regs := destinations (.loadRegs x) } s ((s.loadBytes s.i.toNat (x.toNat + 1)).respond r) :=
  { onlyTouches_respond (s.loadBytes s.i.toNat (x.toNat + 1)) r with
    regs := fun _ hdest => effect_readV (i := .loadRegs x) hdest (by simp [writesFlag]) }

end

/-! ### The increment of I after a transfer (R236) -/

section
variable {s u : State} {x : Nibble}

theorem State.indexAfterTransfer_i_toNat (s : State) (x : Nibble) :
    (s.indexAfterTransfer x).i.toNat =
      if s.cfg.quirkLdstIncI = true then (s.i.toNat + x.toNat + 1) % 65536 else s.i.toNat := by
  have hmoved : (s.i + BitVec.ofNat 16 (x.toNat + 1)).toNat = (s.i.toNat + x.toNat + 1) % 65536 := by
    rw [BitVec.toNat_add, BitVec.toNat_ofNat, Nat.add_mod_mod, Nat.add_assoc]
  rw [← hmoved]
  exact apply_ite BitVec.toNat _ _ _

/-- What a transfer touches, and I besides only under the quirk. -/
theorem OnlyTouches.after_indexAfterTransfer {c : Touched} {r : TickResponse} (h : OnlyTouches c s (u.respond r))
    (hi : c.i = false) (x : Nibble) :
    OnlyTouches { c with i := s.cfg.quirkLdstIncI } s ((u.indexAfterTransfer x).respond r) :=
  { h with
    i := fun hquirk =>
      have hoff : u.cfg.quirkLdstIncI = false := (congrArg Config.quirkLdstIncI h.cfg).trans hquirk
      (if_neg (Bool.eq_false_iff.1 hoff)).trans (h.i hi) }

/-- A transfer faults with I as it was, or completes with I moved under the quirk alone. -/
theorem exec_transfer_index {i : Instr} {check : Option AccessFault}
    (hexec : exec i s = afterCheck i check s (complete false (u.indexAfterTransfer x)))
    (hi : u.i = s.i) (hcfg : u.cfg = s.cfg) :
    ∃ t, exec i s = .next t ∧
      ((∃ r, t.response = some (.fault r)) → t.i = s.i) ∧
      (t.response = some (.ok false) →
        t.i.toNat = if s.cfg.quirkLdstIncI = true then (s.i.toNat + x.toNat + 1) % 65536 else s.i.toNat) ∧
      ((∃ r, t.response = some (.fault r)) ∨ t.response = some (.ok false)) := by
  rcases afterCheck_cases i check s (u.indexAfterTransfer x) false with ⟨-, hdone⟩ | ⟨f, -, hraise⟩
  · refine ⟨_, hexec.trans hdone, nofun, fun _ => ?_, .inr rfl⟩
    rw [← hi, ← hcfg]
    exact u.indexAfterTransfer_i_toNat x
  · exact ⟨_, hexec.trans hraise, fun _ => rfl, nofun, .inl ⟨_, rfl⟩⟩

end

/-! ### The sum of FX1E and its flag (R231) -/

theorem add_zext16_toNat (w : Word) (b : Byte) : (w + zext16 b).toNat = (w.toNat + b.toNat) % 65536 := by
  have hb : (zext16 b).toNat = b.toNat := BitVec.toNat_setWidth_of_le (by decide)
  rw [BitVec.toNat_add, hb]

theorem indexFlagByte_noFlag (sum : Word) (old : Byte) : indexFlagByte .noFlag sum old = old := rfl

theorem indexFlagByte_setOnly (sum : Word) (old : Byte) :
    indexFlagByte .setOnly sum old = if 0x0FFF < sum.toNat then 1 else old :=
  if_congr decide_eq_true_iff rfl rfl

theorem indexFlagByte_setOrClear (sum : Word) (old : Byte) :
    indexFlagByte .setOrClear sum old = if 0x0FFF < sum.toNat then 1 else 0 :=
  if_congr decide_eq_true_iff rfl rfl

theorem State.indexFlag_readV_VF (s : State) (sum : Word) :
    (s.indexFlag sum).readV VF = indexFlagByte s.cfg.fx1eVf sum (s.readV VF) :=
  s.readV_writeV_same VF _

theorem onlyTouches_setI_indexFlag (s : State) (w : Word) (r : TickResponse) :
    OnlyTouches { regs := [0xF], i := true } s (((s.setI w).indexFlag w).respond r) :=
  { onlyTouches_writeV (s.setI w) VF _ r with i := nofun }

/-! ### The obligations -/

/-- Settles O46: the three bytes are the digits where the check passes, and the check's two faults are R64's. -/
theorem bcdStoresThreeDigits : Obligations.BcdStoresThreeDigits := by
  refine fun x s => ⟨decode_encode (.ldBVx x), fun hfits hfont => ?store,
    exec_store_of_out (i := .ldBVx x) rfl, exec_store_of_font (i := .ldBVx x) rfl⟩
  case store =>
    refine ⟨_, exec_store_of_fits (i := .ldBVx x) rfl hfits hfont, rfl, fun _ _ => s.storeBytes_readMem_kept _ _,
      fun k hk hstored => ?digit, onlyTouches_storeBytes s _ _ (bcdDigits_length (s.readV x)) _⟩
    case digit =>
      have hbyte := s.storeBytes_readMem_stored s.i.toNat (bcdDigits (s.readV x)) hk hstored
      exact (congrArg BitVec.toNat hbyte).trans (bcdDigits_getElem_toNat _ hk)

/-- Settles O47. -/
theorem storeRegistersWritesV0ToVX : Obligations.StoreRegistersWritesV0ToVX := by
  refine fun x s => ⟨decode_encode (.storeRegs x), fun hfits hfont => ?store,
    exec_store_of_out (i := .storeRegs x) rfl, exec_store_of_font (i := .storeRegs x) rfl⟩
  case store =>
    have hframe := onlyTouches_storeBytes s s.i.toNat _ (s.registersUpTo_length x) (.ok false)
    refine ⟨_, exec_store_of_fits (i := .storeRegs x) rfl hfits hfont, rfl,
      fun _ _ => s.storeBytes_readMem_kept _ _, fun k hk hstored => ?byte,
      State.indexAfterTransfer_i_toNat _ x, hframe.after_indexAfterTransfer rfl x⟩
    case byte =>
      exact (s.storeBytes_readMem_stored _ _ (State.registersUpTo_lt hk) hstored).trans (s.registersUpTo_getElem hk)

/-- Settles O48. -/
theorem loadRegistersReadsV0ToVX : Obligations.LoadRegistersReadsV0ToVX := by
  refine fun x s => ⟨decode_encode (.loadRegs x), fun hfits => ?load, fun hout => ?fault⟩
  case load =>
    exact ⟨_, exec_loadRegs_of_fits hfits, rfl, s.loadBytes_readV_upTo x _, State.indexAfterTransfer_i_toNat _ x,
      (onlyTouches_loadBytes s x (.ok false)).after_indexAfterTransfer rfl x⟩
  case fault =>
    rw [exec_loadRegs_of_out hout]
    exact raise_spec (.loadRegs x) .outOfBounds _ s

/-- Settles O49: both transfers end with the increment after their check. -/
theorem indexMovesOnlyUnderItsQuirk : Obligations.IndexMovesOnlyUnderItsQuirk := by
  rintro i x s (rfl | rfl)
  · exact exec_transfer_index (u := s.storeBytes s.i.toNat (s.registersUpTo x)) rfl rfl rfl
  · exact exec_transfer_index (u := s.loadBytes s.i.toNat (x.toNat + 1)) rfl rfl rfl

/-- Settles O44. -/
theorem loadIndexSetsI : Obligations.LoadIndexSetsI :=
  fun nnn s => ⟨decode_encode (.ldI nnn), _, rfl, rfl, rfl, onlyTouches_setI s _ _⟩

/-- Settles O45: VF by the three policies, on the sum that I then holds. -/
theorem addToIndexFollowsItsFlagPolicy : Obligations.AddToIndexFollowsItsFlagPolicy := by
  refine fun x s => ⟨decode_encode (.addIVx x), _, rfl, rfl, add_zext16_toNat _ _, ?flag,
    onlyTouches_setI_indexFlag s _ _⟩
  case flag =>
    refine (State.indexFlag_readV_VF _ _).trans ?_
    rw [State.setI_cfg]
    cases s.cfg.fx1eVf with
    | noFlag => exact indexFlagByte_noFlag _ _
    | setOnly => exact indexFlagByte_setOnly _ _
    | setOrClear => exact indexFlagByte_setOrClear _ _

end Sys2Proof.Machine

/-! Timers and keys (45_timer_key.md): the key an index names, a key skip on each side of its fault, the frames of the timer
moves, and the key FX0A takes. -/

namespace Sys2Proof.Machine

section
variable {s : State} {x : Nibble}

/-! ### The key skips (R260, R261, R262) -/

/-- R260: an index of at most 0xF, and under policy Mask any index, names the key of its low nibble. -/
theorem resolveKey_of_named {policy : KeyIndexPolicy} {v : Byte} {k : Nibble} (hk : k.toNat = v.toNat % 16)
    (hnamed : v.toNat ≤ 0xF ∨ policy = .mask) : resolveKey policy v = some k := by
  have hsome : resolveKey policy v ≠ none := by
    rw [Ne, resolveKey_eq_none_iff]
    rintro ⟨habove, rfl⟩
    exact hnamed.elim habove.not_ge nofun
  obtain ⟨j, hj⟩ := Option.ne_none_iff_exists'.1 hsome
  have hlow : k = v.setWidth 4 := BitVec.eq_of_toNat_eq (hk.trans (BitVec.toNat_setWidth 4 v).symm)
  rw [hj, resolveKey_some hj, hlow]

section
variable {i : Instr} {wanted : Bool} (hexec : exec i s = skipOnKey i x wanted s)
include hexec

theorem exec_keySkip_of_named {k : Nibble} (hk : k.toNat = (s.readV x).toNat % 16)
    (hnamed : (s.readV x).toNat ≤ 0xF ∨ s.cfg.keyIndexPolicy = .mask) :
    ∃ t, exec i s = .next t ∧ t.response = some (.ok false) ∧
      t.pc = (if s.keyPressed k = wanted then s.pc + 2 else s.pc) ∧ OnlyTouches { pc := true } s t := by
  have hskip : skipOnKey i x wanted s = complete false (s.skipIf (s.keyPressed k == wanted)) := by
    simp only [skipOnKey, resolveKey_of_named hk hnamed]
  exact exec_skips (hexec.trans hskip) beq_iff_eq

theorem exec_keySkip_of_above (habove : 0xF < (s.readV x).toNat) (hpolicy : s.cfg.keyIndexPolicy = .fault) :
    ∃ t, exec i s = .next t ∧
      FaultRaised (encode i) .keyIndexOutOfRange (some (s.readV x).toNat) s t := by
  have hraise : skipOnKey i x wanted s = raise i .keyIndexOutOfRange (some (s.readV x).toNat) s := by
    simp only [skipOnKey, resolveKey_eq_none_iff.2 ⟨habove, hpolicy⟩]
  rw [hexec, hraise]
  exact raise_spec i .keyIndexOutOfRange _ s

end

/-! ### What a written timer leaves unchanged (R264, R265) -/

theorem onlyTouches_setDt (s : State) (b : Byte) (r : TickResponse) :
    OnlyTouches { dt := true } s ((s.setDt b).respond r) :=
  { onlyTouches_respond (s.setDt b) r with dt := nofun }

theorem onlyTouches_setSt (s : State) (b : Byte) (r : TickResponse) :
    OnlyTouches { st := true } s ((s.setSt b).respond r) :=
  { onlyTouches_respond (s.setSt b) r with st := nofun }

/-! ### The wait for a key (R266) -/

theorem exec_ldVxK_of_lowest_key (x : Nibble) {k : Nibble} (hpressed : s.keyPressed k = true)
    (hlower : ∀ j : Nibble, j.toNat < k.toNat → s.keyPressed j = false) :
    exec (.ldVxK x) s = complete false (s.writeV x (k.setWidth 8)) := by
  have hfirst : s.firstPressed = some k := State.firstPressed_eq_some_iff.2 ⟨hpressed, hlower⟩
  simp only [exec, execLdVxK, hfirst]

end

/-! ### The obligations -/

/-- Settles O50: both are a skip on the level of the named key, SKP where it is pressed and SKNP where it is not. -/
theorem keySkipsFollowTheKeyLevel : Obligations.KeySkipsFollowTheKeyLevel := by
  refine fun x s => ⟨decode_encode (.skp x), decode_encode (.sknp x), fun k hk hnamed => ?named,
    fun habove hpolicy => ?above⟩
  case named => exact ⟨exec_keySkip_of_named rfl hk hnamed, exec_keySkip_of_named rfl hk hnamed⟩
  case above =>
    exact ⟨exec_keySkip_of_above (i := .skp x) rfl habove hpolicy,
      exec_keySkip_of_above (i := .sknp x) rfl habove hpolicy⟩

/-- Settles O51. -/
theorem timerInstructionsMoveTheTimers : Obligations.TimerInstructionsMoveTheTimers := by
  refine fun x s => ⟨?readDt, ?writeDt, ?writeSt⟩
  case readDt => exact ⟨decode_encode (.ldVxDt x), exec_writes rfl⟩
  case writeDt => exact ⟨decode_encode (.ldDtVx x), _, rfl, rfl, rfl, onlyTouches_setDt s _ _⟩
  case writeSt => exact ⟨decode_encode (.ldStVx x), _, rfl, rfl, rfl, onlyTouches_setSt s _ _⟩

/-- Settles O52: the scan's first pressed key is the lowest, and its number fits the register. -/
theorem waitForKeyTakesTheLowestKey : Obligations.WaitForKeyTakesTheLowestKey := by
  refine fun x s => ⟨decode_encode (.ldVxK x), fun k hpressed hlower => ?key, fun hkeys => ?wait⟩
  case key =>
    obtain ⟨t, ht, hok, hx, hframe⟩ := exec_writes (exec_ldVxK_of_lowest_key x hpressed hlower)
    have hnumber : (k.setWidth 8).toNat = k.toNat := BitVec.toNat_setWidth_of_le (by decide)
    exact ⟨t, ht, hok, hx ▸ hnumber, hframe⟩
  case wait => exact ⟨_, exec_ldVxK_of_no_key x hkeys, rfl, rfl, onlyTouches_setPc s _ _⟩

end Sys2Proof.Machine

/-! Faults (60_exceptions.md): the record an instruction that faults leaves, and the cause of each kind of fault
(R301). -/

namespace Sys2Proof.Machine

/-! ### The fault a result answers -/

/-- The record of the fault a result answers, none where it answers no fault. -/
def raised : Result → Option FaultRecord
  | .next t => responseRecord t.response
  | .fault _ | .refused _ => none

section
variable {i : Instr} {s t : State} {r : FaultRecord}

theorem raised_eq_some {res : Result} (hnext : res = .next t) (hfault : t.response = some (.fault r)) :
    raised res = some r := by
  rw [hnext]
  exact congrArg responseRecord hfault

theorem raised_complete (changed : Bool) (s : State) : raised (complete changed s) = none := rfl

theorem raised_raise (i : Instr) (kind : FaultKind) (bad : Option Nat) (s : State) :
    raised (raise i kind bad s) = some ⟨kind, s.pc - 2, some (encode i), bad⟩ := rfl

/-- R126: an instruction that faults latches a record with its address and its word, and does nothing else. -/
theorem exec_of_raised (h : raised (exec i s) = some r) :
    r.addr = s.pc - 2 ∧ r.word = some (encode i) ∧ exec i s = .next (s.latch r) := by
  rcases exec_eq i s with ⟨changed, hdone⟩ | ⟨kind, bad, hraise⟩
  · rw [hdone, raised_complete] at h
    cases h
  · rw [hraise, raised_raise] at h
    cases h
    exact ⟨rfl, rfl, hraise⟩

/-! ### What raises each kind of fault (R301) -/

/-- The check or guard that fails where an instruction raises a fault, one rule per guard; `raises_of_raised` ties it to
`exec`. -/
inductive Raises (s : State) : Instr → FaultKind → Option Nat → Prop
  | fullStack (nnn : Addr12) (hfull : stackCap ≤ s.stack.length) : Raises s (.call nnn) .stackOverflow none
  | emptyStack (hempty : s.stack = []) : Raises s .ret .stackUnderflow none
  | keyIndex {i : Instr} (x : Nibble) (hi : i = .skp x ∨ i = .sknp x)
      (hkey : resolveKey s.cfg.keyIndexPolicy (s.readV x) = none) :
      Raises s i .keyIndexOutOfRange (some (s.readV x).toNat)
  | read {i : Instr} {n : Nat} {f : AccessFault}
      (hi : (∃ x y k, i = .drw x y k ∧ n = k.toNat) ∨ ∃ x, i = .loadRegs x ∧ n = x.toNat + 1)
      (hcheck : checkRead s.i.toNat n = some f) : Raises s i f.kind (some f.bad)
  | write {i : Instr} {n : Nat} {f : AccessFault}
      (hi : (∃ x, i = .ldBVx x ∧ n = 3) ∨ ∃ x, i = .storeRegs x ∧ n = x.toNat + 1)
      (hcheck : checkWrite s.cfg.fontWritePolicy s.i.toNat n = some f) : Raises s i f.kind (some f.bad)

section
variable {P : FaultKind → Option Nat → Prop}

/-- A checked instruction faults as its check says. -/
theorem raised_afterCheck {check : Option AccessFault} {changed : Bool}
    (hP : ∀ f, check = some f → P f.kind (some f.bad))
    (h : raised (afterCheck i check s (complete changed t)) = some r) : P r.kind r.bad := by
  cases check with
  | none => cases h
  | some f => cases h; exact hP f rfl

/-- A key skip faults where its index names no key. -/
theorem raised_skipOnKey {x : Nibble} {wanted : Bool}
    (hP : resolveKey s.cfg.keyIndexPolicy (s.readV x) = none → P .keyIndexOutOfRange (some (s.readV x).toNat))
    (h : raised (skipOnKey i x wanted s) = some r) : P r.kind r.bad := by
  unfold skipOnKey at h
  split at h
  case h_1 hkey => cases h; exact hP hkey
  case h_2 => cases h

end

/-- INVERSION OF A FAULT IN EXECUTE: the guard of the instruction that failed. -/
theorem raises_of_raised (h : raised (exec i s) = some r) : Raises s i r.kind r.bad := by
  cases i with
  | ret =>
    by_cases hempty : s.stack = []
    · rw [exec_ret_of_empty hempty] at h
      cases h; exact .emptyStack hempty
    · rw [exec_ret_of_stack (List.dropLast_concat_getLast hempty).symm] at h
      cases h
  | call nnn =>
    rcases Nat.lt_or_ge s.stack.length stackCap with hroom | hfull
    · rw [exec_call_of_room nnn hroom] at h
      cases h
    · rw [exec_call_of_full nnn hfull] at h
      cases h; exact .fullStack nnn hfull
  | skp x => exact raised_skipOnKey (.keyIndex x (.inl rfl)) h
  | sknp x => exact raised_skipOnKey (.keyIndex x (.inr rfl)) h
  | drw x y k => exact raised_afterCheck (fun _ => .read (.inl ⟨x, y, k, rfl, rfl⟩)) h
  | loadRegs x => exact raised_afterCheck (fun _ => .read (.inr ⟨x, rfl, rfl⟩)) h
  | ldBVx x => exact raised_afterCheck (fun _ => .write (.inl ⟨x, rfl, rfl⟩)) h
  | storeRegs x => exact raised_afterCheck (fun _ => .write (.inr ⟨x, rfl, rfl⟩)) h
  | ldVxK x =>
    simp only [exec, execLdVxK] at h
    split at h <;> cases h
  | _ => cases h

end

/-! ### The checks in the numbers of R301 -/

theorem checkRead_eq_some {base n : Nat} {f : AccessFault} (h : checkRead base n = some f) :
    (0 < n ∧ 0xFFF < base + n - 1) ∧ f = ⟨.outOfBounds, max base 0x1000⟩ := by
  obtain ⟨⟨hpos, hout⟩, hf⟩ := checkRead_eq_some_iff.1 h
  simp only [memSize] at hout
  exact ⟨⟨hpos, by omega⟩, hf⟩

/-- R64: the lowest font address a range covers, with the font's addresses written out. -/
theorem firstFontHit_eq_some {base n p : Nat} (h : firstFontHit base n = some p) :
    (base ≤ p ∧ p < base + n ∧ 0x50 ≤ p ∧ p ≤ 0x9F) ∧ ∀ q, base ≤ q → 0x50 ≤ q → q ≤ 0x9F → p ≤ q := by
  obtain ⟨⟨hlow, hhigh, hfont⟩, hleast⟩ := firstFontHit_eq_some_iff.1 h
  rw [inFont_iff] at hfont
  exact ⟨by omega, fun q hbase h1 h2 => hleast q hbase (inFont_iff.2 (by omega))⟩

/-! ### An instruction that answers with a fault -/

/-- The instruction responds with a fault of the kind and the `bad`, as R301's table gives them. -/
def FaultsWith (i : Instr) (s : State) (kind : FaultKind) (bad : Option Nat) : Prop :=
  ∃ t r, exec i s = .next t ∧ t.response = some (.fault r) ∧ r.kind = kind ∧ r.bad = bad

section
variable {i : Instr} {s : State} {kind : FaultKind} {bad : Option Nat}

theorem faultsWith_of_raise (h : exec i s = raise i kind bad s) : FaultsWith i s kind bad :=
  ⟨_, _, h, rfl, rfl, rfl⟩

theorem faultsWith_of_faultRaised {w : Word} (h : ∃ t, exec i s = .next t ∧ FaultRaised w kind bad s t) :
    FaultsWith i s kind bad := by
  obtain ⟨t, ht, rfl⟩ := h
  exact ⟨_, _, ht, rfl, rfl, rfl⟩

end

/-! ### The obligations -/

/-- Settles O12: the fault is that of the fetch or of the instruction at PC, whose state has PC + 2. -/
theorem faultsArePrecise : Obligations.FaultsArePrecise := by
  intro s t r hnext hfault
  rcases step_cases s with ⟨hpc, hstep⟩ | ⟨hpc, i, hword, hstep⟩ | ⟨-, w, -, hstep⟩
  · cases hstep.symm.trans hnext
    cases hfault
    exact ⟨rfl, .inr ⟨hpc, rfl, s.latch_eq _⟩⟩
  · obtain ⟨haddr, hrecord, hlatch⟩ := exec_of_raised (raised_eq_some (hstep.symm.trans hnext) hfault)
    have hback : s.pc + 2 - 2 = s.pc := BitVec.add_sub_cancel _ _
    have hencode : encode i = s.wordAtPc := decode_eq_instr_iff.1 hword
    cases (hstep.trans hlatch).symm.trans hnext
    exact ⟨haddr.trans hback, .inl ⟨hpc, hencode ▸ hrecord, ⟨i, hword⟩, s.advance.latch_eq r⟩⟩
  · cases hstep.symm.trans hnext
    cases hfault

/-- Settles O13: a fault is traced back to the guard that failed, and a guard that fails raises its fault. -/
theorem faultKindsHaveTheirCauses : Obligations.FaultKindsHaveTheirCauses := by
  refine ⟨fun i s t r hcap hnext hfault => ?cause, fun s t r hpc hnext hfault => ?fetch,
    fun s t hpc hword hnext => ?unknown, fun c s bytes hlarge => perform_load_of_tooLarge hlarge,
    fun s => ⟨?overflow, ?underflow, ?draw, ?bcd, ?transfer, ?key, ?font⟩⟩
  case cause =>
    have hraises := raises_of_raised (raised_eq_some hnext hfault)
    obtain ⟨kind, addr, word, bad⟩ := r
    cases hraises with
    | fullStack nnn hfull => exact ⟨⟨nnn, rfl⟩, hcap.antisymm hfull, rfl⟩
    | emptyStack hempty => exact ⟨rfl, hempty, rfl⟩
    | keyIndex x hi hkey =>
      obtain ⟨habove, hpolicy⟩ := resolveKey_eq_none_iff.1 hkey
      exact ⟨x, hi, habove, hpolicy, rfl⟩
    | @read _ n _ hi hcheck =>
      obtain ⟨⟨hpos, hout⟩, rfl⟩ := checkRead_eq_some hcheck
      exact ⟨n, hpos, hout, rfl, hi.imp_right fun ⟨x, hx, hn⟩ => .inr ⟨x, .inr hx, hn⟩⟩
    | @write _ n _ hi hcheck =>
      rcases checkWrite_eq_some_iff.1 hcheck with hread | ⟨-, hpolicy, p, hhit, rfl⟩
      · obtain ⟨⟨hpos, hout⟩, rfl⟩ := checkRead_eq_some hread
        exact ⟨n, hpos, hout, rfl, .inr (hi.imp_right fun ⟨x, hx, hn⟩ => ⟨x, .inl hx, hn⟩)⟩
      · obtain ⟨hcovered, hleast⟩ := firstFontHit_eq_some hhit
        exact ⟨n, p, hi, hpolicy, rfl, hcovered, hleast⟩
  case fetch =>
    cases (step_of_fetchFault hpc).symm.trans hnext
    cases hfault
    exact ⟨rfl, rfl⟩
  case unknown =>
    cases (step_of_unknown hpc hword).symm.trans hnext
    exact ⟨rfl, rfl⟩
  case overflow => exact fun hfull nnn => faultsWith_of_raise (exec_call_of_full nnn hfull.ge)
  case underflow => exact fun hempty => faultsWith_of_raise (exec_ret_of_empty hempty)
  case draw => exact fun x y k hk hout => faultsWith_of_raise (exec_drw_of_out x y hk hout)
  case bcd => exact fun x hout => faultsWith_of_faultRaised (exec_store_of_out (i := .ldBVx x) rfl hout)
  case transfer =>
    exact fun x hout => ⟨faultsWith_of_faultRaised (exec_store_of_out (i := .storeRegs x) rfl hout),
      faultsWith_of_raise (exec_loadRegs_of_out hout)⟩
  case key =>
    exact fun x habove hpolicy =>
      ⟨faultsWith_of_faultRaised (exec_keySkip_of_above (i := .skp x) rfl habove hpolicy),
        faultsWith_of_faultRaised (exec_keySkip_of_above (i := .sknp x) rfl habove hpolicy)⟩
  case font =>
    refine fun hpolicy hhigh => ⟨fun x hlow => ?_, fun x hlow => ?_⟩
    · exact faultsWith_of_faultRaised (exec_store_of_font (i := .ldBVx x) rfl (by omega) hpolicy hlow hhigh)
    · exact faultsWith_of_faultRaised (exec_store_of_font (i := .storeRegs x) rfl (by omega) hpolicy hlow hhigh)

end Sys2Proof.Machine

/-! The host's timers, keys and read-outs (60_exceptions.md R320 to R331). -/

namespace Sys2Proof.Machine

/-! ### Timers and keys -/

theorem countDown_toNat (b : Byte) : (countDown b).toNat = if b.toNat > 0 then b.toNat - 1 else 0 := by
  unfold countDown
  split
  · next hpos => exact BitVec.toNat_sub_of_le (BitVec.le_def.2 hpos)
  · rfl

/-- Settles O54. -/
theorem timersCountDownToZero : Obligations.TimersCountDownToZero :=
  fun _ s => ⟨s.hostTickTimers, rfl, countDown_toNat s.dt, countDown_toNat s.st, rfl⟩

/-- The last write of a key wins. -/
theorem State.setKey_setKey (s : State) (k : Nibble) (p q : Bool) : (s.setKey k p).setKey k q = s.setKey k q := by
  simp only [State.setKey, Vector.set_set]

/-- Settles O55. -/
theorem setKeyWritesOneKey : Obligations.SetKeyWritesOneKey := by
  refine fun c s k p q => ⟨s.setKey k p, s.setKey k q, rfl, ?written, fun j hj => ?other, rfl, ?again, rfl⟩
  case written => rw [State.keyPressed_setKey, if_pos rfl]
  case other => rw [State.keyPressed_setKey, if_neg hj.symm]
  case again =>
    rw [← s.setKey_setKey k p q]
    rfl

/-! ### The read-outs -/

section
variable {α β : Type} {l : List α} {f : α → List β} {w : Nat}

theorem length_flatMap_of_length (hf : ∀ a ∈ l, (f a).length = w) : (l.flatMap f).length = l.length * w := by
  rw [List.length_flatMap, List.map_congr_left hf, List.map_const', List.sum_replicate_nat]

/-- Where every block has `w` entries, entry `c` of block `r` stands at `r * w + c`. -/
theorem getElem?_flatMap_of_length (hf : ∀ a ∈ l, (f a).length = w) {r c : Nat} {a : α} (hr : l[r]? = some a)
    (hc : c < w) : (l.flatMap f)[r * w + c]? = (f a)[c]? := by
  induction l generalizing r with
  | nil => cases hr
  | cons b l ih =>
    have hb : (f b).length = w := hf b List.mem_cons_self
    rw [List.flatMap_cons]
    cases r with
    | zero =>
      obtain rfl : b = a := Option.some.inj hr
      rw [Nat.zero_mul, Nat.zero_add, List.getElem?_append_left (hb ▸ hc)]
    | succ r =>
      have hnext : (r + 1) * w + c = (f b).length + (r * w + c) := by rw [hb]; ring
      rw [hnext, List.getElem?_append_right (Nat.le_add_right _ _), Nat.add_sub_cancel_left]
      exact ih (fun a ha => hf a (List.mem_cons_of_mem b ha)) hr

end

theorem pixelBytes_length (c : Colours) (on : Bool) : (pixelBytes c on).length = 4 := rfl

section
variable {s : State} (k : Colours) (hs : Display.shaped s.cfg s.disp)
include hs

/-- Each row of the framebuffer has four bytes a pixel. -/
theorem Display.shaped.row_bytes_length :
    ∀ row ∈ s.disp, (row.flatMap (pixelBytes k)).length = s.cfg.width * 4 := by
  intro row hrow
  rw [length_flatMap_of_length fun on _ => pixelBytes_length k on, hs.2 row hrow]

theorem State.readFramebuffer_length : (s.readFramebuffer k).length = s.cfg.width * s.cfg.height * 4 := by
  rw [State.readFramebuffer, length_flatMap_of_length (hs.row_bytes_length k), hs.1]
  ring

/-- R330: byte `j` of the pixel at row `r`, column `c`, stands at `(r * W + c) * 4 + j`. -/
theorem State.readFramebuffer_getElem? {r c j : Nat} (hr : r < s.cfg.height) (hc : c < s.cfg.width) (hj : j < 4) :
    (s.readFramebuffer k)[(r * s.cfg.width + c) * 4 + j]? = (pixelBytes k (Display.pixel s.disp r c))[j]? := by
  have hr' : r < s.disp.length := hs.1 ▸ hr
  have hc' : c < s.disp[r].length := (hs.2 _ (List.getElem_mem hr')) ▸ hc
  have hrow : s.disp[r]? = some s.disp[r] := List.getElem?_eq_getElem hr'
  have hon : s.disp[r][c]? = some (Display.pixel s.disp r c) := by
    simp only [Display.pixel, hrow, Option.getD_some, List.getElem?_eq_getElem hc']
  have hplace : (r * s.cfg.width + c) * 4 + j = r * (s.cfg.width * 4) + (c * 4 + j) := by ring
  calc (s.readFramebuffer k)[(r * s.cfg.width + c) * 4 + j]?
      = (s.disp[r].flatMap (pixelBytes k))[c * 4 + j]? := by
        rw [hplace]; exact getElem?_flatMap_of_length (hs.row_bytes_length k) hrow (by omega)
    _ = (pixelBytes k (Display.pixel s.disp r c))[j]? :=
        getElem?_flatMap_of_length (fun on _ => pixelBytes_length k on) hon hj

end

/-- Settles O56: the four bytes of a pixel are R, G, B and A of its colour. -/
theorem framebufferHoldsTheColours : Obligations.FramebufferHoldsTheColours := by
  refine fun k s hs => ⟨s.readFramebuffer k, rfl, State.readFramebuffer_length k hs, fun r c hr hc => ?_⟩
  have hbyte (j : Nat) (hj : j < 4) := State.readFramebuffer_getElem? k hs hr hc hj
  exact ⟨hbyte 0 (by decide), hbyte 1 (by decide), hbyte 2 (by decide), hbyte 3 (by decide)⟩

/-- Settles O57: by the read-outs' own definitions. -/
theorem readOutsChangeNothing : Obligations.ReadOutsChangeNothing :=
  fun _ _ => ⟨rfl, rfl, rfl⟩

end Sys2Proof.Machine

/-! Reset (70_reset_and_hazards.md): the state RESET leaves, the run of a machine that no program was loaded into, and the
refutation of the involution rule's second sentence (43_display.md R206). -/

namespace Sys2Proof.Machine

/-! ### The state after RESET (R350) -/

section
variable (cfg : Config) (draws : Nat)

theorem State.afterReset_readMem (p : Nat) : (State.afterReset cfg draws).readMem p =
    if 0x050 ≤ p ∧ p < 0x0A0 then cfg.font.getD (p - 0x050) 0 else 0x00 :=
  if_congr inFont_iff rfl rfl

theorem State.afterReset_readV (x : Nibble) : (State.afterReset cfg draws).readV x = 0x00 :=
  Vector.getElem_replicate x.isLt

theorem State.afterReset_keyPressed (k : Nibble) : (State.afterReset cfg draws).keyPressed k = false :=
  Vector.getElem_replicate k.isLt

end

/-- Settles O18: the base case of the invariant and of the font, for every configuration and for the default one. -/
theorem resetMeetsTheInvariant : Obligations.ResetMeetsTheInvariant :=
  have hdefault : defaultConfig.wellFormed = true := by decide
  ⟨fun cfg n hcfg => ⟨State.inv_afterReset hcfg n, State.fontIntact_afterReset cfg n⟩,
    State.inv_afterReset hdefault 0, State.fontIntact_afterReset defaultConfig 0⟩

/-- Settles O20: RESET answers `State.afterReset` of the configuration it finds. -/
theorem resetLeavesTheListedValues : Obligations.ResetLeavesTheListedValues :=
  fun _ s => ⟨s.hostReset, rfl, fun p _ => State.afterReset_readMem s.cfg s.draws p,
    State.afterReset_readV s.cfg s.draws, rfl, rfl, rfl, rfl, rfl, State.afterReset_keyPressed s.cfg s.draws,
    Display.shaped_blank s.cfg, fun r c _ _ => Display.pixel_blank s.cfg.width s.cfg.height r c, rfl, rfl⟩

/-! ### Runs -/

section
variable {M : Host.Core} {k : Nat} {s t : M.State}

theorem run_succ_of_step {u : M.State} (h : M.step s = .next u) : M.run (k + 1) s = M.run k u := by
  rw [Host.Core.run, h]

/-- A run of `k + 1` steps that has a state after `k` of them ends with the step from that state. -/
theorem run_succ_of_run (h : M.run k s = .next t) : M.run (k + 1) s = M.step t := by
  induction k generalizing s with
  | zero =>
    cases h
    cases hstep : M.step t <;> simp only [Host.Core.run, hstep]
  | succ k ih =>
    cases hstep : M.step s with
    | next u =>
      rw [run_succ_of_step hstep] at h ⊢
      exact ih h
    | fault f => rw [Host.Core.run, hstep] at h; cases h
    | refused e => rw [Host.Core.run, hstep] at h; cases h

/-- A run that has reached a state whose step answers that state again stays there. -/
theorem run_of_fixed {m : Nat} (h : M.run k s = .next t) (hfixed : M.step t = .next t) (hle : k ≤ m) :
    M.run m s = .next t := by
  induction m, hle using Nat.le_induction with
  | base => exact h
  | succ m _ ih => exact (run_succ_of_run ih).trans hfixed

end

/-! ### The machine that no program was loaded into (R354) -/

/-- The reset state after `k` TICKs that each found the word 0x0000. -/
def State.unloaded (k : Nat) : State :=
  { State.reset with pc := BitVec.ofNat 16 (0x200 + 2 * k),
                     response := if k = 0 then none else some (.unknown 0x0000) }

theorem State.unloaded_pc_toNat {k : Nat} (hk : k ≤ 1792) : (State.unloaded k).pc.toNat = 0x200 + 2 * k :=
  (BitVec.toNat_ofNat _ _).trans (Nat.mod_eq_of_lt (by omega))

/-- Above the font the unloaded machine's memory reads zero. -/
theorem State.unloaded_readMem (k : Nat) {p : Nat} (hp : 0x200 ≤ p) : (State.unloaded k).readMem p = 0x00 :=
  (State.afterReset_readMem defaultConfig 0 p).trans (if_neg (by omega))

theorem State.unloaded_wordAtPc {k : Nat} (hk : k ≤ 1792) : (State.unloaded k).wordAtPc = 0x0000 := by
  have hpc := State.unloaded_pc_toNat hk
  rw [State.wordAtPc, State.unloaded_readMem k (by omega), State.unloaded_readMem k (by omega)]
  decide

/-- Inside memory the unloaded machine's TICK finds an unknown word and moves PC by 2 (R127). -/
theorem step_unloaded {k : Nat} (hk : k < 1792) : step (State.unloaded k) = .next (State.unloaded (k + 1)) := by
  have hpc := State.unloaded_pc_toNat hk.le
  have hword : decode (State.unloaded k).wordAtPc = .unknown 0x0000 := by
    rw [State.unloaded_wordAtPc hk.le]; decide
  have hnext : (State.unloaded k).pc + 2 = (State.unloaded (k + 1)).pc := (BitVec.ofNat_add _ _).symm
  rw [step_of_unknown (by omega) hword]
  exact congrArg (fun pc => Host.Outcome.next { State.reset with pc := pc, response := some (.unknown 0x0000) }) hnext

theorem run_unloaded {k : Nat} (hk : k ≤ 1792) :
    Sys2Proof.core.run k State.reset = .next (State.unloaded k) := by
  induction k with
  | zero => rfl
  | succ k ih => exact (run_succ_of_run (ih (by omega))).trans (step_unloaded hk)

/-- Settles O21: 1792 unknown words bring PC to 0x1000, where the fetch faults, and every later TICK answers that state
again. -/
theorem unloadedMachineRunsToTheEndOfMemory : Obligations.UnloadedMachineRunsToTheEndOfMemory := by
  have hend : 0xFFF < (State.unloaded 1792).pc.toNat + 1 := by decide
  have hfirst : Sys2Proof.core.run 1793 State.reset = _ :=
    (run_succ_of_run (run_unloaded le_rfl)).trans (step_of_fetchFault hend)
  exact ⟨fun _ => run_unloaded, fun k hk => ⟨_, run_of_fixed hfirst (step_fetchFault_again hend) hk, rfl, rfl⟩⟩

/-! ### A second draw that turns no pixel off (R203, log entry 15) -/

/-- A display with every pixel on. -/
def litDisplay (width height : Nat) : Display := List.replicate height (List.replicate width true)

theorem Display.shaped_lit (cfg : Config) : Display.shaped cfg (litDisplay cfg.width cfg.height) := by
  refine ⟨List.length_replicate, fun row hrow => ?_⟩
  rw [List.eq_of_mem_replicate hrow]
  exact List.length_replicate

theorem Display.pixel_lit {w h r c : Nat} (hr : r < h) (hc : c < w) : Display.pixel (litDisplay w h) r c = true := by
  simp only [Display.pixel, litDisplay, List.getElem?_replicate, if_pos hr, if_pos hc, Option.getD_some]

/-- The reset state with every pixel on and I at the font's first byte, 0xF0. -/
def State.lit : State := { State.reset with i := 0x050, disp := litDisplay 64 32 }

theorem State.lit_inv : State.lit.Inv :=
  { State.inv_afterReset (cfg := defaultConfig) (by decide) 0 with display := Display.shaped_lit defaultConfig }

/-- Refutes O41: on a display with every pixel on, the first draw of the font's first row turns pixels off and the second
turns them on again, so no pixel goes from on to off and VF is 0. -/
theorem not_secondDrawOfAnOpaqueSpriteAlwaysCollides :
    ¬ Obligations.SecondDrawOfAnOpaqueSpriteAlwaysCollides := by
  intro h
  have hx : (0 : Nibble) ≠ VF := by decide
  have hopaque : State.lit.spriteBit 0 0 1 0 0 = true := by decide
  have hflag : ((State.lit.drawnOnce 0 0 1).drawSprite 0 0 1).readV VF = 1 :=
    h 0 0 1 State.lit _ _ State.lit_inv hx hx (by decide) ⟨0, 0, by decide, by decide, hopaque⟩ rfl rfl
  obtain ⟨r, c, hr, hc, hoff, -⟩ := (State.drawSprite_drawnOnce_flag 1 State.lit_inv.display hx hx).1 hflag
  cases (Display.pixel_lit hr hc).symm.trans hoff

end Sys2Proof.Machine
